-- ==== Sys2Proof/Word.lean ====
section
/-! DEFINITION. The words that cross the port of the MFA (spec 00_scope.md R10, R11): 128-bit data
words and 32-bit command words, each denoting an unsigned integer with bit 0 least significant. -/

namespace Sys2Proof

/-- A 128-bit word: a field register, a memory element, `DIN`, `DOUT` (R6 `ELEM_BITS`, R51, R53). -/
abbrev Word := BitVec 128

/-- A 32-bit command word `CW` (R6 `CW_BITS`, R70). -/
abbrev CommandWord := BitVec 32

/-- The word that denotes a natural number below `2^128` (R11, `zext_128`). -/
def toWord (n : Nat) : Word := BitVec.ofNat 128 n

end Sys2Proof
end

