-- ==== Sys2Proof/Syntax.lean ====
section
/-! DEFINITION. The commands of the MFA (spec 30_encoding.md R72, R76): one constructor per row of
spec/opcode_table.json. -/

namespace Sys2Proof

/-- A field register number: every value of a 4-bit register field is legal (R22, R75). -/
abbrev Reg := Fin 16

/-- A command with its fields in the order of the assembler syntax of R87. An immediate is an unsigned
integer (R74); that it fits its twelve bits is checked by `Instr.WellFormed`. -/
inductive Instr where
  /-- `FLD Fd`: load an element from the data port (R101). -/
  | fld (rd : Reg)
  /-- `FSETI Fd, imm`: embed a small integer (R102). -/
  | fseti (rd : Reg) (imm : Nat)
  /-- `FST Fa`: deliver an element to the data port (R103). -/
  | fst (ra : Reg)
  /-- `FMOV Fd, Fa`: copy (R104). -/
  | fmov (rd ra : Reg)
  /-- `FADD Fd, Fa, Fb` (R116). -/
  | fadd (rd ra rb : Reg)
  /-- `FSUB Fd, Fa, Fb`, `Fa` minus `Fb` (R117). -/
  | fsub (rd ra rb : Reg)
  /-- `FMUL Fd, Fa, Fb` (R118). -/
  | fmul (rd ra rb : Reg)
  /-- `FNEG Fd, Fa` (R119). -/
  | fneg (rd ra : Reg)
  /-- `FINV Fd, Fa` (R120). -/
  | finv (rd ra : Reg)
  /-- `FEQ Fa, Fb` (R121). -/
  | feq (ra rb : Reg)
  /-- `PSETK imm`: begin a polynomial of `imm` coefficients (R132). -/
  | psetk (imm : Nat)
  /-- `PLDC imm, Fa`: load coefficient slot `imm` (R133). -/
  | pldc (imm : Nat) (ra : Reg)
  /-- `PRDC Fd, imm`: read coefficient slot `imm` (R134). -/
  | prdc (rd : Reg) (imm : Nat)
  /-- `PEVAL Fd, Fa`: evaluate the polynomial at `Fa` (R135). -/
  | peval (rd ra : Reg)
  /-- `PSHARE imm`: generate the shares at `1 .. imm` (R136). -/
  | pshare (imm : Nat)
  /-- `SPUSH Fa, Fb`: append the share `(Fa, Fb)` (R151). -/
  | spush (ra rb : Reg)
  /-- `SRDX Fd, imm`: read the abscissa of share slot `imm` (R152). -/
  | srdx (rd : Reg) (imm : Nat)
  /-- `SRDY Fd, imm`: read the value of share slot `imm` (R153). -/
  | srdy (rd : Reg) (imm : Nat)
  /-- `LRECON Fd`: interpolate at zero (R155). -/
  | lrecon (rd : Reg)
  /-- `CRD imm`: read CSR `imm` (R170). -/
  | crd (imm : Nat)
  /-- `CLR imm`: discard state by mask (R171). -/
  | clr (imm : Nat)
  deriving DecidableEq, Repr

end Sys2Proof
end

