-- ==== Sys2Proof/WellFormed.lean ====
section
/-! DEFINITION. Which commands a command word can express (spec 30_encoding.md R71, R74): an immediate is
an unsigned 12-bit integer, 0 to 4095. Register numbers are in range by their type (R75). -/

namespace Sys2Proof

/-- An immediate that fits `CW[11:0]` (R71, R74). -/
def immFits (imm : Nat) : Bool := decide (imm < 4096)

/-- The check, for every command. -/
def Instr.wellFormed : Instr → Bool
  | .fld _ => true
  | .fseti _ imm => immFits imm
  | .fst _ => true
  | .fmov _ _ => true
  | .fadd _ _ _ => true
  | .fsub _ _ _ => true
  | .fmul _ _ _ => true
  | .fneg _ _ => true
  | .finv _ _ => true
  | .feq _ _ => true
  | .psetk imm => immFits imm
  | .pldc imm _ => immFits imm
  | .prdc _ imm => immFits imm
  | .peval _ _ => true
  | .pshare imm => immFits imm
  | .spush _ _ => true
  | .srdx _ imm => immFits imm
  | .srdy _ imm => immFits imm
  | .lrecon _ => true
  | .crd imm => immFits imm
  | .clr imm => immFits imm

/-- A well-formed command: one that has a command word. -/
abbrev Instr.WellFormed (i : Instr) : Prop := i.wellFormed = true

end Sys2Proof
end

