-- ==== Sys2Proof/Decode.lean ====
section
/-! DEFINITION. Command words to commands and back (spec 30_encoding.md R70 to R77, R84, R87, R88).
Decoding is total: a word is a command or is rejected by name. It depends on the word alone (R77). -/

namespace Sys2Proof

/-! ### The opcode map -/

/-- The twenty-one opcodes of R76. -/
inductive Opcode where
  | fld | fseti | fst | fmov
  | fadd | fsub | fmul | fneg | finv | feq
  | psetk | pldc | prdc | peval | pshare
  | spush | srdx | srdy | lrecon
  | crd | clr
  deriving DecidableEq, Repr

/-- The eight formats of R72. -/
inductive Format where
  | r3 | r2 | s2 | d1 | s1 | di | si | i
  deriving DecidableEq, Repr

/-- The column `op` of R76. -/
def Opcode.code : Opcode → BitVec 8
  | .fld => 0x10#8
  | .fseti => 0x11#8
  | .fst => 0x12#8
  | .fmov => 0x13#8
  | .fadd => 0x20#8
  | .fsub => 0x21#8
  | .fmul => 0x22#8
  | .fneg => 0x23#8
  | .finv => 0x24#8
  | .feq => 0x25#8
  | .psetk => 0x30#8
  | .pldc => 0x31#8
  | .prdc => 0x32#8
  | .peval => 0x33#8
  | .pshare => 0x34#8
  | .spush => 0x40#8
  | .srdx => 0x41#8
  | .srdy => 0x42#8
  | .lrecon => 0x43#8
  | .crd => 0x50#8
  | .clr => 0x51#8

/-- The column `mnemonic` of R76. -/
def Opcode.mnemonic : Opcode → String
  | .fld => "FLD"
  | .fseti => "FSETI"
  | .fst => "FST"
  | .fmov => "FMOV"
  | .fadd => "FADD"
  | .fsub => "FSUB"
  | .fmul => "FMUL"
  | .fneg => "FNEG"
  | .finv => "FINV"
  | .feq => "FEQ"
  | .psetk => "PSETK"
  | .pldc => "PLDC"
  | .prdc => "PRDC"
  | .peval => "PEVAL"
  | .pshare => "PSHARE"
  | .spush => "SPUSH"
  | .srdx => "SRDX"
  | .srdy => "SRDY"
  | .lrecon => "LRECON"
  | .crd => "CRD"
  | .clr => "CLR"

/-- The column `format` of R76. -/
def Opcode.format : Opcode → Format
  | .fld => .d1
  | .fseti => .di
  | .fst => .s1
  | .fmov => .r2
  | .fadd => .r3
  | .fsub => .r3
  | .fmul => .r3
  | .fneg => .r2
  | .finv => .r2
  | .feq => .s2
  | .psetk => .i
  | .pldc => .si
  | .prdc => .di
  | .peval => .r2
  | .pshare => .i
  | .spush => .s2
  | .srdx => .di
  | .srdy => .di
  | .lrecon => .d1
  | .crd => .i
  | .clr => .i

/-- Every opcode, in the order of R76. -/
def Opcode.all : List Opcode :=
  [.fld, .fseti, .fst, .fmov, .fadd, .fsub, .fmul, .fneg, .finv, .feq] ++
  [.psetk, .pldc, .prdc, .peval, .pshare, .spush, .srdx, .srdy, .lrecon, .crd, .clr]

/-- The opcode with this number, if it is assigned (R77 step 1). -/
def Opcode.ofCode (c : BitVec 8) : Option Opcode := Opcode.all.find? fun o => o.code == c

/-- The column `mask` of R76: the opcode bits and every must-be-zero bit (R73). -/
def Opcode.mask (o : Opcode) : CommandWord :=
  match o.format with
  | .r3 => 0xFF000FFF#32
  | .r2 => 0xFF00FFFF#32
  | .s2 => 0xFFF00FFF#32
  | .d1 => 0xFF0FFFFF#32
  | .s1 => 0xFFF0FFFF#32
  | .di => 0xFF0FF000#32
  | .si => 0xFFF0F000#32
  | .i => 0xFFFFF000#32

/-- The column `match` of R76: the command word with every field zero. -/
def Opcode.matchWord (o : Opcode) : CommandWord := o.code ++ 0#24

/-! ### The fields of a command word -/

/-- The five fields of R71. -/
structure Fields where
  /-- `CW[31:24]` -/
  op : BitVec 8
  /-- `CW[23:20]` -/
  rd : BitVec 4
  /-- `CW[19:16]` -/
  ra : BitVec 4
  /-- `CW[15:12]` -/
  rb : BitVec 4
  /-- `CW[11:0]` -/
  imm : BitVec 12
  deriving DecidableEq, Repr

/-- The fields of a word (R71). -/
def Fields.ofWord (cw : CommandWord) : Fields where
  op := cw.extractLsb' 24 8
  rd := cw.extractLsb' 20 4
  ra := cw.extractLsb' 16 4
  rb := cw.extractLsb' 12 4
  imm := cw.extractLsb' 0 12

/-- The word with these fields (R71). -/
def Fields.toWord (f : Fields) : CommandWord := f.op ++ f.rd ++ f.ra ++ f.rb ++ f.imm

/-- Does the format use the field `rd`? (R72) -/
def Format.usesRd : Format → Bool
  | .r3 | .r2 | .d1 | .di => true
  | .s2 | .s1 | .si | .i => false

/-- Does the format use the field `ra`? (R72) -/
def Format.usesRa : Format → Bool
  | .r3 | .r2 | .s2 | .s1 | .si => true
  | .d1 | .di | .i => false

/-- Does the format use the field `rb`? (R72) -/
def Format.usesRb : Format → Bool
  | .r3 | .s2 => true
  | .r2 | .d1 | .s1 | .di | .si | .i => false

/-- Does the format use the field `imm`? (R72) -/
def Format.usesImm : Format → Bool
  | .di | .si | .i => true
  | .r3 | .r2 | .s2 | .d1 | .s1 => false

/-- Every field the format does not use is zero (R73). -/
def Fields.fits (f : Fields) (fmt : Format) : Bool :=
  (fmt.usesRd || f.rd == 0#4) && (fmt.usesRa || f.ra == 0#4) &&
  (fmt.usesRb || f.rb == 0#4) && (fmt.usesImm || f.imm == 0#12)

/-- The register a 4-bit field selects (R75). -/
def regOf (f : BitVec 4) : Reg := f.toFin

/-- The 4-bit field that selects a register (R75). -/
def regField (r : Reg) : BitVec 4 := BitVec.ofFin r

/-- The 12-bit field of an immediate (R74). -/
def immField (imm : Nat) : BitVec 12 := BitVec.ofNat 12 imm

/-- The command with this opcode and these fields (R72, R77 step 3). -/
def Opcode.build (o : Opcode) (f : Fields) : Instr :=
  match o with
  | .fld => .fld (regOf f.rd)
  | .fseti => .fseti (regOf f.rd) f.imm.toNat
  | .fst => .fst (regOf f.ra)
  | .fmov => .fmov (regOf f.rd) (regOf f.ra)
  | .fadd => .fadd (regOf f.rd) (regOf f.ra) (regOf f.rb)
  | .fsub => .fsub (regOf f.rd) (regOf f.ra) (regOf f.rb)
  | .fmul => .fmul (regOf f.rd) (regOf f.ra) (regOf f.rb)
  | .fneg => .fneg (regOf f.rd) (regOf f.ra)
  | .finv => .finv (regOf f.rd) (regOf f.ra)
  | .feq => .feq (regOf f.ra) (regOf f.rb)
  | .psetk => .psetk f.imm.toNat
  | .pldc => .pldc f.imm.toNat (regOf f.ra)
  | .prdc => .prdc (regOf f.rd) f.imm.toNat
  | .peval => .peval (regOf f.rd) (regOf f.ra)
  | .pshare => .pshare f.imm.toNat
  | .spush => .spush (regOf f.ra) (regOf f.rb)
  | .srdx => .srdx (regOf f.rd) f.imm.toNat
  | .srdy => .srdy (regOf f.rd) f.imm.toNat
  | .lrecon => .lrecon (regOf f.rd)
  | .crd => .crd f.imm.toNat
  | .clr => .clr f.imm.toNat

/-! ### Decoding -/

/-- Why a command word is no command. Both reasons answer `IllegalCommand` (R84, R210 (a) and (b)). -/
inductive DecodeError where
  /-- `CW[31:24]` is none of the twenty-one opcodes (R77 step 1). -/
  | unassignedOpcode (op : BitVec 8)
  /-- A field that the command's format does not use is nonzero (R73, R77 step 2). -/
  | mustBeZero (op : Opcode)
  deriving DecidableEq, Repr

/-- The decode procedure of R77, total on every 32-bit word. -/
def decode (cw : CommandWord) : Except DecodeError Instr :=
  let f := Fields.ofWord cw
  match Opcode.ofCode f.op with
  | none => .error (.unassignedOpcode f.op)
  | some o => if f.fits o.format then .ok (o.build f) else .error (.mustBeZero o)

/-- The instruction the decoder reads from a row of spec/opcode_table.json whose bits are `w`, of which
`nbits` count. A word wider than a command word is no command (R70: one length only). -/
def decodeTableWord (nbits w : Nat) : Option Instr :=
  if w % 2 ^ nbits < 2 ^ 32 then
    match decode (BitVec.ofNat 32 (w % 2 ^ nbits)) with
    | .ok i => some i
    | .error _ => none
  else none

/-! ### Encoding -/

/-- The opcode of a command. -/
def Instr.opcode : Instr → Opcode
  | .fld _ => .fld
  | .fseti _ _ => .fseti
  | .fst _ => .fst
  | .fmov _ _ => .fmov
  | .fadd _ _ _ => .fadd
  | .fsub _ _ _ => .fsub
  | .fmul _ _ _ => .fmul
  | .fneg _ _ => .fneg
  | .finv _ _ => .finv
  | .feq _ _ => .feq
  | .psetk _ => .psetk
  | .pldc _ _ => .pldc
  | .prdc _ _ => .prdc
  | .peval _ _ => .peval
  | .pshare _ => .pshare
  | .spush _ _ => .spush
  | .srdx _ _ => .srdx
  | .srdy _ _ => .srdy
  | .lrecon _ => .lrecon
  | .crd _ => .crd
  | .clr _ => .clr

/-- The five fields of a command: its operands where its format has them, zero elsewhere (R72, R73). -/
def Instr.fields (c : Instr) : Fields :=
  let z : Fields := ⟨c.opcode.code, 0#4, 0#4, 0#4, 0#12⟩
  match c with
  | .fld rd => { z with rd := regField rd }
  | .fseti rd imm => { z with rd := regField rd, imm := immField imm }
  | .fst ra => { z with ra := regField ra }
  | .fmov rd ra => { z with rd := regField rd, ra := regField ra }
  | .fadd rd ra rb => { z with rd := regField rd, ra := regField ra, rb := regField rb }
  | .fsub rd ra rb => { z with rd := regField rd, ra := regField ra, rb := regField rb }
  | .fmul rd ra rb => { z with rd := regField rd, ra := regField ra, rb := regField rb }
  | .fneg rd ra => { z with rd := regField rd, ra := regField ra }
  | .finv rd ra => { z with rd := regField rd, ra := regField ra }
  | .feq ra rb => { z with ra := regField ra, rb := regField rb }
  | .psetk imm => { z with imm := immField imm }
  | .pldc imm ra => { z with ra := regField ra, imm := immField imm }
  | .prdc rd imm => { z with rd := regField rd, imm := immField imm }
  | .peval rd ra => { z with rd := regField rd, ra := regField ra }
  | .pshare imm => { z with imm := immField imm }
  | .spush ra rb => { z with ra := regField ra, rb := regField rb }
  | .srdx rd imm => { z with rd := regField rd, imm := immField imm }
  | .srdy rd imm => { z with rd := regField rd, imm := immField imm }
  | .lrecon rd => { z with rd := regField rd }
  | .crd imm => { z with imm := immField imm }
  | .clr imm => { z with imm := immField imm }

/-- The command word of a command (R71, R72, R76); of a well-formed one, its own. -/
def encode (c : Instr) : CommandWord := c.fields.toWord

/-! ### Assembler text and pseudo-instructions -/

/-- A register in assembler text, `F0` to `F15` (R87). -/
def asmReg (r : Reg) : String := "F" ++ toString r.val

/-- The assembler line of a command: mnemonic, then operands, destination first (R87). The host's `DIN`
annotation of `FLD` is not part of the command. Immediates are written in decimal. -/
def Instr.asm (c : Instr) : String :=
  c.opcode.mnemonic ++ " " ++
  match c with
  | .fld rd | .lrecon rd => asmReg rd
  | .fst ra => asmReg ra
  | .fseti rd imm | .prdc rd imm | .srdx rd imm | .srdy rd imm => asmReg rd ++ ", " ++ toString imm
  | .fmov rd ra | .fneg rd ra | .finv rd ra | .peval rd ra => asmReg rd ++ ", " ++ asmReg ra
  | .fadd rd ra rb | .fsub rd ra rb | .fmul rd ra rb =>
    asmReg rd ++ ", " ++ asmReg ra ++ ", " ++ asmReg rb
  | .feq ra rb | .spush ra rb => asmReg ra ++ ", " ++ asmReg rb
  | .pldc imm ra => toString imm ++ ", " ++ asmReg ra
  | .psetk imm | .pshare imm | .crd imm | .clr imm => toString imm

/-- The nine pseudo-instructions of R88. -/
inductive Pseudo where
  | nop
  | fzero (rd : Reg)
  | fone (rd : Reg)
  | fclr
  | pclr
  | sclr
  | clrall
  | pcons (k : Nat) (rs : Reg)
  | fsqr (rd ra : Reg)
  deriving DecidableEq, Repr

/-- The exact expansion of each (R88). The second command of `PCONS` is issued only when the first
answered `OK`. R88 gives `PCONS 0` no expansion, its `k-1` being no unsigned immediate: the truncated
subtraction that makes its second command `PLDC 0` is the model's choice, never issued since `PSETK 0` fails.
DESIGN CHOICE, notes/assumptions/18.md. -/
def Pseudo.expand : Pseudo → List Instr
  | .nop => [.clr 0]
  | .fzero rd => [.fseti rd 0]
  | .fone rd => [.fseti rd 1]
  | .fclr => [.clr 1]
  | .pclr => [.clr 2]
  | .sclr => [.clr 4]
  | .clrall => [.clr 7]
  | .pcons k rs => [.psetk k, .pldc (k - 1) rs]
  | .fsqr rd ra => [.fmul rd ra ra]

end Sys2Proof
end

