-- ==== Sys2Proof/Config.lean ====
section
/-! DEFINITION. The parameters of the MFA (spec 00_scope.md R6, R7, R8). All but the modulus are fixed
by the spec. The modulus `P` is open: nothing here says which admissible value it has. -/

namespace Sys2Proof.Config

/-- `ELEM_BITS`, the width of a field element (R6). -/
def elemBits : Nat := 128

/-- `NFREG`, the number of field registers (R6, R22). -/
def nfreg : Nat := 16

/-- `KMAX`, the capacity of the coefficient memory and of the share memory (R6, R27, R29). -/
def kmax : Nat := 16

/-- `VERSION`, the command-set version (R6, R33). -/
def version : Nat := 1

/-- The largest CSR number (R32). -/
def lastCsr : Nat := 5

/-- The largest clear mask of `CLR` (R171). -/
def lastClearMask : Nat := 7

/-- An admissible modulus, R7 (a) and (c): prime and above `KMAX`. R7 (b), `P < 2^128`, is the type. -/
abbrev ModulusOk (P : Word) : Prop := P.toNat.Prime ∧ kmax < P.toNat

/-- The sample modulus `P_S = 2^128 - 159` of R8, for vectors only. -/
def sampleLarge : Word := 0xFFFFFFFFFFFFFFFFFFFFFFFFFFFFFF61#128

/-- The toy modulus `P_T = 97` of R8, for vectors only. -/
def sampleToy : Word := 97#128

/-- The open parameter `P` of R6 before its admissibility is known: a constant with no body, so no proof
can see its value. DESIGN CHOICE, notes/assumptions/1.md. -/
opaque modulusChoice : Word

/-- The modulus of the instance that `State.reset` describes: `modulusChoice` where R7 admits it. Were the
choice inadmissible, R233 gives the instance no meaning; the toy modulus then only keeps this constant
admissible. So it is an arbitrary admissible modulus: it may be any, and a proof knows no more of it than
`ModulusOk`. DESIGN CHOICE, notes/assumptions/1.md. -/
def modulus : Word := if ModulusOk modulusChoice then modulusChoice else sampleToy

end Sys2Proof.Config
end

