-- ==== Sys2Proof/Machine/State.lean ====
section
/-! DEFINITION. The state of one MFA instance (spec 10_state.md R20 to R40), what stands at its port
(30_encoding.md R89, R90), the reasons a step can stop, and the state after reset (70_reset_and_hazards.md
R231). -/

namespace Sys2Proof.Machine

/-! ### Errors, statuses, responses -/

/-- The error kinds of R201. -/
inductive ErrorKind where
  /-- A word that is not a field element, or an element that holds no value (R202). -/
  | invalidRepresentation
  /-- The coefficient count is below 2 (R203). -/
  | degenerateThreshold
  /-- A count of shares is wrong (R204). -/
  | mismatchedLengths
  /-- A zero or repeated abscissa (R205). -/
  | duplicateOrZeroIndex
  /-- The inverse of zero (R206). -/
  | noninvertibleElement
  /-- Reserved for the host; the MFA never produces it (R207). -/
  | wrongAnswer
  /-- The command word or its immediate has no meaning (R210). -/
  | illegalCommand
  deriving DecidableEq, Repr

/-- The status every command ends with (R200). -/
inductive Status where
  | ok
  | error (kind : ErrorKind)
  deriving DecidableEq, Repr

/-- The response to a command (R10, R90). -/
structure Response where
  status : Status
  dout : Word
  deriving DecidableEq, Repr

/-! ### What the host does -/

/-- One act of the host at the port (R89, R180, R230). -/
inductive Input where
  /-- A transaction: the host presents `(CW, DIN)` (R89). -/
  | command (cw : CommandWord) (din : Word)
  /-- Reset asserted between two commands; power-on is one (R230). -/
  | reset
  /-- Reset asserted while the command `(CW, DIN)` executes: it is abandoned (R230). -/
  | abandoned (cw : CommandWord) (din : Word)
  deriving DecidableEq, Repr

/-! ### The state -/

/-- A share `(x, y)` (R29). -/
structure Share where
  x : Word
  y : Word
  deriving DecidableEq, Repr

/-- The state: the tuple of R20 with the constant `P` of R21, and the port. An element that holds no value
is `none` (R39, notes/assumptions/3.md). -/
structure State where
  /-- The modulus, a constant of the instance that no command and no reset changes (R21;
  notes/assumptions/2.md). -/
  P : Word
  /-- Field registers: `none` is `FV[i] = 0` (R22). -/
  F : Vector (Option Word) 16
  /-- Coefficient memory: `none` is `CV[i] = 0` (R27). -/
  COEF : Vector (Option Word) 16
  /-- Coefficient count: 0, or 2 to 16 (R27). -/
  K : Nat
  /-- The share list: slot `i` is `(SHX[i], SHY[i])`, the length is `NSH` (R29; notes/assumptions/4.md). -/
  SH : List Share
  /-- `DIN` of the command being executed (R89; the model's own, notes/assumptions/6.md). -/
  din : Word
  /-- What the host does next, oldest first (R9, R180; the model's own, notes/assumptions/5.md). -/
  inputs : List Input
  /-- The response to the latest command, if one was given (R90; notes/assumptions/7.md). -/
  response : Option Response
  deriving DecidableEq, Repr

/-- `NSH`, the number of shares (R29). -/
def State.NSH (s : State) : Nat := s.SH.length

/-- `SHX[0 .. NSH-1]`, the abscissas in slot order (R29). -/
def State.SHX (s : State) : List Word := s.SH.map Share.x

/-- `SHY[0 .. NSH-1]`, the values in slot order (R29). -/
def State.SHY (s : State) : List Word := s.SH.map Share.y

/-- The reset state of an instance with modulus `P` (R231, R40): nothing holds a value, no polynomial, no
share. The host has presented nothing and no response was given (notes/assumptions/5.md, 6.md, 7.md). -/
def State.resetOf (P : Word) : State where
  P := P
  F := Vector.replicate 16 none
  COEF := Vector.replicate 16 none
  K := 0
  SH := []
  din := 0#128
  inputs := []
  response := none

/-- The machine right after reset (R231), its modulus the open parameter (R21; notes/assumptions/1.md). -/
def State.reset : State := State.resetOf Config.modulus

/-! ### Why a step can stop -/

/-- Reasons to stop with a fault. There are none: every command answers a status (R10, R200) and an error
is a response, not a stop (R213), so nothing raises a fault (notes/assumptions/11.md). -/
inductive Fault
  deriving DecidableEq, Repr

/-- Reasons to refuse an instruction. -/
inductive Refusal where
  /-- The instruction has no meaning in this model yet. Raised only by an arm of `exec`; safe. No arm of
  this model raises it. -/
  | notModelled (mnemonic : String)
  deriving DecidableEq, Repr

end Sys2Proof.Machine
end

