-- ==== Sys2Proof/Machine/Flags.lean ====
section
/-! DEFINITION. The MFA has no flags and no condition codes (spec 10_state.md R26): a comparison answers on
`DOUT`, an error in `STATUS`. This file holds what stands in their place: the status codes (60_exceptions.md
R201), the boolean of `FEQ` (R121) and the read-only views of the CSRs, the valid bits among them
(10_state.md R31 to R36). -/

namespace Sys2Proof.Machine

/-- The numeric code of an error kind (R201). -/
def ErrorKind.code : ErrorKind → BitVec 4
  | .invalidRepresentation => 1#4
  | .degenerateThreshold => 2#4
  | .mismatchedLengths => 3#4
  | .duplicateOrZeroIndex => 4#4
  | .noninvertibleElement => 5#4
  | .wrongAnswer => 6#4
  | .illegalCommand => 7#4

/-- `STATUS[3:0]` (R90, R201). -/
def Status.code : Status → BitVec 4
  | .ok => 0#4
  | .error k => k.code

/-- A truth value on `DOUT` (R121). -/
def boolWord (b : Bool) : Word := if b then 1#128 else 0#128

/-- The number whose bit `i` is set when element `i` holds a value (R36). -/
def validNat : List (Option Word) → Nat
  | [] => 0
  | e :: es => (if e.isSome then 1 else 0) + 2 * validNat es

/-- The valid bits of sixteen elements as a word (R36). -/
def validMask (v : Vector (Option Word) 16) : Word := toWord (validNat v.toList)

/-- CSR `ID`: `ELEM_BITS`, `KMAX`, `NFREG`, `VERSION`, a byte each, the last lowest (R33). -/
def csrId : Word :=
  toWord (Config.elemBits * 2 ^ 24 + Config.kmax * 2 ^ 16 + Config.nfreg * 2 ^ 8 + Config.version)

/-- The value of CSR `n`, zero-extended (R32); numbers above 5 name no CSR and are refused by `CRD`
before this is read (R31). -/
def State.csr (s : State) (n : Nat) : Word :=
  match n with
  | 0 => csrId
  | 1 => s.P
  | 2 => toWord s.K
  | 3 => toWord s.NSH
  | 4 => validMask s.F
  | 5 => validMask s.COEF
  | _ => 0#128

end Sys2Proof.Machine
end

