-- ==== Sys2Proof/Machine/Field.lean ====
section
/-! DEFINITION. The arithmetic of the field (spec 41_field_arithmetic.md R110 to R115), Horner's method
(42_polynomial_evaluator.md R131) and interpolation at zero (43_lagrange_interpolation.md R154), on natural
numbers with the modulus as an argument. Intermediate values are exact (R38, R123). -/

namespace Sys2Proof.Machine.Field

/-- `a (+) b` (R110). -/
def add (p a b : Nat) : Nat := (a + b) % p

/-- `a (-) b`: the integer difference modulo `p` (R12, R111). -/
def sub (p a b : Nat) : Nat := (((a : Int) - (b : Int)) % (p : Int)).toNat

/-- `a (*) b`: the exact product modulo `p` (R112). -/
def mul (p a b : Nat) : Nat := (a * b) % p

/-- `(-)a` (R113). -/
def neg (p a : Nat) : Nat := sub p 0 a

/-- `b ^ e mod p` by squaring, for exponents of at most `n` bits. -/
def powMod (p : Nat) : Nat → Nat → Nat → Nat
  | 0, _, _ => 1 % p
  | n + 1, b, e =>
    if e % 2 = 1 then mul p b (powMod p n (mul p b b) (e / 2)) else powMod p n (mul p b b) (e / 2)

/-- `inv(a)`, computed as `a ^ (p - 2) mod p`, one of the two ways R114 admits. That it is the inverse of a
nonzero element is a law of the model, for a prime modulus only (notes/assumptions/8.md, 9.md). -/
def inv (p a : Nat) : Nat := powMod p 128 a (p - 2)

/-- Horner's method over the coefficients in slot order, the highest power first (R131). -/
def horner (p : Nat) (coefs : List Nat) (x : Nat) : Nat :=
  coefs.foldl (fun acc c => add p (mul p acc x) c) 0

/-- A product in the field; the empty product is 1 (R154). -/
def prod (p : Nat) (xs : List Nat) : Nat := xs.foldl (mul p) 1

/-- A sum in the field. -/
def sum (p : Nat) (xs : List Nat) : Nat := xs.foldl (add p) 0

/-- The term of one share: `y (*) D (*) inv(N)`, `N` the product of `x (-) x_j` and `D` the product of
`(-) x_j` over the abscissas `x_j` of all the other shares (R154). -/
def lagrangeTerm (p : Nat) (share : Nat × Nat) (others : List Nat) : Nat :=
  let n := prod p (others.map fun xj => sub p share.1 xj)
  let d := prod p (others.map fun xj => neg p xj)
  mul p (mul p share.2 d) (inv p n)

/-- `lagrange0`: the sum of the terms of all the shares (R154, R156). -/
def lagrange0 (p : Nat) (shares : List (Nat × Nat)) : Nat :=
  sum p (shares.zipIdx.map fun e => lagrangeTerm p e.1 ((shares.eraseIdx e.2).map Prod.fst))

end Sys2Proof.Machine.Field
end

