-- ==== Sys2Proof/Machine/Operands.lean ====
section
/-! DEFINITION. Every way a command obtains an operand, with the check that guards it (spec 10_state.md R23,
R41; 20_memory.md R52, R55; 30_encoding.md R74, R75; 60_exceptions.md R202, R210). A check that fails names
the error kind the command answers. -/

namespace Sys2Proof.Machine

/-- "if `c` then `raise k`" (R13, R100). -/
def raiseIf (c : Prop) [Decidable c] (k : ErrorKind) : Except ErrorKind Unit :=
  if c then .error k else .ok ()

/-- An element that must hold a value (R22, R202 (b)). -/
def valueOf (e : Option Word) : Except ErrorKind Word :=
  match e with
  | some v => .ok v
  | none => .error .invalidRepresentation

/-- A source register (R22, R75). -/
def State.readF (s : State) (r : Reg) : Except ErrorKind Word := valueOf s.F[r]

/-- A coefficient slot whose index has been checked (R27, R134). -/
def State.readCoef (s : State) (i : Nat) : Except ErrorKind Word := valueOf (s.COEF[i]?.getD none)

/-- All the elements, if every one holds a value. -/
def allValues : List (Option Word) → Option (List Word)
  | [] => some []
  | none :: _ => none
  | some v :: es => (allValues es).map (v :: ·)

/-- `COEF[0 .. K-1]`, the complete polynomial, as integers (R27, R135 check 2, R136 check 4). -/
def State.readPolynomial (s : State) : Except ErrorKind (List Nat) :=
  match allValues (s.COEF.toList.take s.K) with
  | some cs => .ok (cs.map BitVec.toNat)
  | none => .error .invalidRepresentation

/-- A share slot below `NSH` (R29, R152, R153). -/
def State.readShare (s : State) (i : Nat) : Except ErrorKind Share :=
  match s.SH[i]? with
  | some sh => .ok sh
  | none => .error .illegalCommand

/-- The canonical-range test of the constructors (R101, R102, R202 (a)). -/
def State.canonical (s : State) (v : Nat) : Except ErrorKind Unit :=
  raiseIf (s.P.toNat ≤ v) .invalidRepresentation

/-- A share as a pair of integers. -/
def Share.toPair (sh : Share) : Nat × Nat := (sh.x.toNat, sh.y.toNat)

end Sys2Proof.Machine
end

