-- ==== Sys2Proof/Machine/Ops.lean ====
section
/-! DEFINITION. The named operations over the state: writes, discarding, answering, raising an error, reset
and the acceptance of a command (spec 00_scope.md R13; 60_exceptions.md R209; 70_reset_and_hazards.md R230). -/

namespace Sys2Proof.Machine

/-! ### Writes -/

/-- `F[r] <- v`, which sets `FV[r]` (R13). -/
def State.writeF (s : State) (r : Reg) (v : Word) : State := { s with F := s.F.set r (some v) }

/-- `COEF[i] <- v; CV[i] <- 1` for a slot whose index has been checked (R133). -/
def State.writeCoef (s : State) (i : Nat) (v : Word) : State :=
  { s with COEF := s.COEF.setIfInBounds i (some v) }

/-- `K <- k` and every `CV[i] <- 0` (R132, R171). -/
def State.setK (s : State) (k : Nat) : State := { s with K := k, COEF := Vector.replicate 16 none }

/-- The share list replaced whole, and `NSH` with it (R136). -/
def State.setShares (s : State) (l : List Share) : State := { s with SH := l }

/-- `SHX[NSH] <- x; SHY[NSH] <- y; NSH <- NSH + 1` (R151). -/
def State.pushShare (s : State) (x y : Word) : State := s.setShares (s.SH ++ [⟨x, y⟩])

/-- Every `FV[i] <- 0` (R171 bit 0). -/
def State.clearF (s : State) : State := { s with F := Vector.replicate 16 none }

/-- The three discards of `CLR`, each where its mask bit is set (R171). -/
def State.clear (s : State) (mask : Nat) : State :=
  let s0 := if mask.testBit 0 then s.clearF else s
  let s1 := if mask.testBit 1 then s0.setK 0 else s0
  if mask.testBit 2 then s1.setShares [] else s1

/-! ### Answering -/

/-- `respond(OK, d)` (R13, R90). -/
def State.respond (s : State) (d : Word) : State := { s with response := some ⟨.ok, d⟩ }

/-- Taking an error, the only kind of exception there is: `respond(code, 0)` and no state change (R13, R209).
There is no trap entry and nothing is saved; the return is the host's next command (R213). -/
def State.raise (s : State) (k : ErrorKind) : State := { s with response := some ⟨.error k, 0#128⟩ }

/-- What a command that passed its checks does: its new state and the data it delivers. -/
abbrev Effect := State × Word

/-- An effect on the state, with `DOUT = 0` (R90). -/
def effect (t : State) : Except ErrorKind Effect := .ok (t, 0#128)

/-- A value delivered on `DOUT`, with no effect on the state (R54, R90). -/
def State.deliver (s : State) (d : Word) : Except ErrorKind Effect := .ok (s, d)

/-- The state in which a command ends: all its writes and its answer together, or the error alone (R209). -/
def State.finish (s : State) (r : Except ErrorKind Effect) : State :=
  match r with
  | .ok (t, d) => t.respond d
  | .error k => s.raise k

/-- A command always ends with an answer: the step is total (R10, R200). -/
def State.complete (s : State) (r : Except ErrorKind Effect) : Host.Outcome State Fault Refusal :=
  .next (s.finish r)

/-! ### The port -/

/-- The command at the head of the host's inputs is accepted: its `DIN` stands at the port (R89). -/
def State.accept (s : State) (din : Word) (rest : List Input) : State :=
  { s with din := din, inputs := rest }

/-- Reset: the reset state whatever the state was, with the modulus unchanged and no response (R230, R231).
What the host does afterwards is the host's. -/
def State.hardReset (s : State) (rest : List Input) : State :=
  { State.resetOf s.P with inputs := rest }

/-- Byte lane `j` of a port word, bits `8j+7 : 8j` (R51, a convention for hosts; notes/assumptions/12.md). -/
def byteLane (w : Word) (j : Fin 16) : BitVec 8 := w.extractLsb' (8 * j.val) 8

end Sys2Proof.Machine
end

