-- ==== Sys2Proof/Machine/Arithmetic.lean ====
section
/-! DEFINITION. Field arithmetic: FADD, FSUB, FMUL, FNEG, FINV, FEQ (spec 41_field_arithmetic.md R116 to
R121). -/

namespace Sys2Proof.Machine

/-- Both sources of a two-operand command, as integers (R116 to R118). -/
def State.readPair (s : State) (ra rb : Reg) : Except ErrorKind (Nat × Nat) := do
  let a ← s.readF ra
  let b ← s.readF rb
  return (a.toNat, b.toNat)

/-- `FADD Fd, Fa, Fb` (R116). -/
def execFadd (rd ra rb : Reg) (s : State) : Host.Outcome State Fault Refusal :=
  s.complete do
    let (a, b) ← s.readPair ra rb
    effect (s.writeF rd (toWord (Field.add s.P.toNat a b)))

/-- `FSUB Fd, Fa, Fb` (R117). -/
def execFsub (rd ra rb : Reg) (s : State) : Host.Outcome State Fault Refusal :=
  s.complete do
    let (a, b) ← s.readPair ra rb
    effect (s.writeF rd (toWord (Field.sub s.P.toNat a b)))

/-- `FMUL Fd, Fa, Fb` (R118). -/
def execFmul (rd ra rb : Reg) (s : State) : Host.Outcome State Fault Refusal :=
  s.complete do
    let (a, b) ← s.readPair ra rb
    effect (s.writeF rd (toWord (Field.mul s.P.toNat a b)))

/-- `FNEG Fd, Fa` (R119). -/
def execFneg (rd ra : Reg) (s : State) : Host.Outcome State Fault Refusal :=
  s.complete do
    let a ← s.readF ra
    effect (s.writeF rd (toWord (Field.neg s.P.toNat a.toNat)))

/-- `FINV Fd, Fa` (R120). -/
def execFinv (rd ra : Reg) (s : State) : Host.Outcome State Fault Refusal :=
  s.complete do
    let a ← s.readF ra
    raiseIf (a = 0#128) .noninvertibleElement
    effect (s.writeF rd (toWord (Field.inv s.P.toNat a.toNat)))

/-- `FEQ Fa, Fb`: a plain 128-bit comparison (R115, R121). -/
def execFeq (ra rb : Reg) (s : State) : Host.Outcome State Fault Refusal :=
  s.complete do
    let a ← s.readF ra
    let b ← s.readF rb
    s.deliver (boolWord (a == b))

end Sys2Proof.Machine
end

