-- ==== Sys2Proof/Machine/Constructors.lean ====
section
/-! DEFINITION. Field element constructors and moves: FLD, FSETI, FST, FMOV
(spec 40_field_constructors_and_moves.md R100 to R104). -/

namespace Sys2Proof.Machine

/-- `FLD Fd` (R101). -/
def execFld (rd : Reg) (s : State) : Host.Outcome State Fault Refusal :=
  s.complete do
    s.canonical s.din.toNat
    effect (s.writeF rd s.din)

/-- `FSETI Fd, imm` (R102). -/
def execFseti (rd : Reg) (imm : Nat) (s : State) : Host.Outcome State Fault Refusal :=
  s.complete do
    s.canonical imm
    effect (s.writeF rd (toWord imm))

/-- `FST Fa` (R103). -/
def execFst (ra : Reg) (s : State) : Host.Outcome State Fault Refusal :=
  s.complete do
    let a ← s.readF ra
    s.deliver a

/-- `FMOV Fd, Fa` (R104). -/
def execFmov (rd ra : Reg) (s : State) : Host.Outcome State Fault Refusal :=
  s.complete do
    let a ← s.readF ra
    effect (s.writeF rd a)

end Sys2Proof.Machine
end

