-- ==== Sys2Proof/Machine/Control.lean ====
section
/-! DEFINITION. The control commands: CRD, CLR (spec 44_control_commands.md R170, R171). -/

namespace Sys2Proof.Machine

/-- `CRD imm` (R170). -/
def execCrd (imm : Nat) (s : State) : Host.Outcome State Fault Refusal :=
  s.complete do
    raiseIf (Config.lastCsr < imm) .illegalCommand
    s.deliver (s.csr imm)

/-- `CLR imm` (R171). -/
def execClr (imm : Nat) (s : State) : Host.Outcome State Fault Refusal :=
  s.complete do
    raiseIf (Config.lastClearMask < imm) .illegalCommand
    effect (s.clear imm)

end Sys2Proof.Machine
end

