-- ==== Sys2Proof/Machine/Polynomial.lean ====
section
/-! DEFINITION. The polynomial evaluator: PSETK, PLDC, PRDC, PEVAL, PSHARE
(spec 42_polynomial_evaluator.md R130 to R136). -/

namespace Sys2Proof.Machine

/-- Checks (1) to (3) of a command on one coefficient slot: below the capacity, a polynomial configured,
below `K` (R133, R134). -/
def State.coefSlot (s : State) (imm : Nat) : Except ErrorKind Unit := do
  raiseIf (Config.kmax ≤ imm) .illegalCommand
  raiseIf (s.K = 0) .degenerateThreshold
  raiseIf (s.K ≤ imm) .illegalCommand

/-- The share at abscissa `x` of a polynomial: `(x, horner(x))` (R136). -/
def shareAt (p : Nat) (coefs : List Nat) (x : Nat) : Share :=
  ⟨toWord x, toWord (Field.horner p coefs x)⟩

/-- The shares at `x = 1 .. n` in slot order (R136). -/
def sharesUpTo (p : Nat) (coefs : List Nat) (n : Nat) : List Share :=
  (List.range n).map fun i => shareAt p coefs (i + 1)

/-- `PSETK imm` (R132). -/
def execPsetk (imm : Nat) (s : State) : Host.Outcome State Fault Refusal :=
  s.complete do
    raiseIf (Config.kmax < imm) .illegalCommand
    raiseIf (imm ≤ 1) .degenerateThreshold
    effect (s.setK imm)

/-- `PLDC imm, Fa` (R133). -/
def execPldc (imm : Nat) (ra : Reg) (s : State) : Host.Outcome State Fault Refusal :=
  s.complete do
    s.coefSlot imm
    let a ← s.readF ra
    effect (s.writeCoef imm a)

/-- `PRDC Fd, imm` (R134). -/
def execPrdc (rd : Reg) (imm : Nat) (s : State) : Host.Outcome State Fault Refusal :=
  s.complete do
    s.coefSlot imm
    let c ← s.readCoef imm
    effect (s.writeF rd c)

/-- `PEVAL Fd, Fa` (R135). -/
def execPeval (rd ra : Reg) (s : State) : Host.Outcome State Fault Refusal :=
  s.complete do
    raiseIf (s.K = 0) .degenerateThreshold
    let x ← s.readF ra
    let coefs ← s.readPolynomial
    effect (s.writeF rd (toWord (Field.horner s.P.toNat coefs x.toNat)))

/-- `PSHARE imm` (R136). -/
def execPshare (imm : Nat) (s : State) : Host.Outcome State Fault Refusal :=
  s.complete do
    raiseIf (Config.kmax < imm) .illegalCommand
    raiseIf (s.K = 0) .degenerateThreshold
    raiseIf (imm = 0 ∨ s.K < imm) .mismatchedLengths
    let coefs ← s.readPolynomial
    effect (s.setShares (sharesUpTo s.P.toNat coefs imm))

end Sys2Proof.Machine
end

