-- ==== Sys2Proof/Machine/Shares.lean ====
section
/-! DEFINITION. The share memory and the Lagrange interpolation engine: SPUSH, SRDX, SRDY, LRECON
(spec 43_lagrange_interpolation.md R150 to R156). -/

namespace Sys2Proof.Machine

/-- A share slot to read: below the capacity and below `NSH` (R152, R153 checks 1 and 2). -/
def State.shareSlot (s : State) (imm : Nat) : Except ErrorKind Share := do
  raiseIf (Config.kmax ≤ imm) .illegalCommand
  s.readShare imm

/-- A zero abscissa, or two equal ones (R155 check 3). -/
abbrev badAbscissas (xs : List Word) : Prop := 0#128 ∈ xs ∨ ¬ xs.Nodup

/-- `SPUSH Fa, Fb` (R151). -/
def execSpush (ra rb : Reg) (s : State) : Host.Outcome State Fault Refusal :=
  s.complete do
    raiseIf (s.NSH = Config.kmax) .illegalCommand
    let x ← s.readF ra
    let y ← s.readF rb
    effect (s.pushShare x y)

/-- `SRDX Fd, imm` (R152). -/
def execSrdx (rd : Reg) (imm : Nat) (s : State) : Host.Outcome State Fault Refusal :=
  s.complete do
    let sh ← s.shareSlot imm
    effect (s.writeF rd sh.x)

/-- `SRDY Fd, imm` (R153). -/
def execSrdy (rd : Reg) (imm : Nat) (s : State) : Host.Outcome State Fault Refusal :=
  s.complete do
    let sh ← s.shareSlot imm
    effect (s.writeF rd sh.y)

/-- `LRECON Fd` (R155). -/
def execLrecon (rd : Reg) (s : State) : Host.Outcome State Fault Refusal :=
  s.complete do
    raiseIf (s.K = 0) .degenerateThreshold
    raiseIf (s.NSH ≠ s.K) .mismatchedLengths
    raiseIf (badAbscissas s.SHX) .duplicateOrZeroIndex
    effect (s.writeF rd (toWord (Field.lagrange0 s.P.toNat (s.SH.map Share.toPair))))

end Sys2Proof.Machine
end

