-- ==== Sys2Proof/Machine/Dispatch.lean ====
section
/-! DEFINITION. The meaning of every command, one arm per constructor of `Instr`. -/

namespace Sys2Proof.Machine

def exec (i : Instr) (s : State) : Host.Outcome State Fault Refusal :=
  match i with
  | .fld rd => Sys2Proof.Machine.execFld rd s
  | .fseti rd imm => Sys2Proof.Machine.execFseti rd imm s
  | .fst ra => Sys2Proof.Machine.execFst ra s
  | .fmov rd ra => Sys2Proof.Machine.execFmov rd ra s
  | .fadd rd ra rb => Sys2Proof.Machine.execFadd rd ra rb s
  | .fsub rd ra rb => Sys2Proof.Machine.execFsub rd ra rb s
  | .fmul rd ra rb => Sys2Proof.Machine.execFmul rd ra rb s
  | .fneg rd ra => Sys2Proof.Machine.execFneg rd ra s
  | .finv rd ra => Sys2Proof.Machine.execFinv rd ra s
  | .feq ra rb => Sys2Proof.Machine.execFeq ra rb s
  | .psetk imm => Sys2Proof.Machine.execPsetk imm s
  | .pldc imm ra => Sys2Proof.Machine.execPldc imm ra s
  | .prdc rd imm => Sys2Proof.Machine.execPrdc rd imm s
  | .peval rd ra => Sys2Proof.Machine.execPeval rd ra s
  | .pshare imm => Sys2Proof.Machine.execPshare imm s
  | .spush ra rb => Sys2Proof.Machine.execSpush ra rb s
  | .srdx rd imm => Sys2Proof.Machine.execSrdx rd imm s
  | .srdy rd imm => Sys2Proof.Machine.execSrdy rd imm s
  | .lrecon rd => Sys2Proof.Machine.execLrecon rd s
  | .crd imm => Sys2Proof.Machine.execCrd imm s
  | .clr imm => Sys2Proof.Machine.execClr imm s

end Sys2Proof.Machine
end

