-- ==== Sys2Proof/Machine/Transaction.lean ====
section
/-! DEFINITION. One transaction of the command port, and how a word is put in front of it
(spec 30_encoding.md R77, R84, R89). -/

namespace Sys2Proof.Machine

/-- A command word is decoded and executed; one that is no command answers `IllegalCommand` (R77, R84). -/
def transact (cw : CommandWord) (s : State) : Host.Outcome State Fault Refusal :=
  match decode cw with
  | .ok i => exec i s
  | .error _ => .next (s.raise .illegalCommand)

/-- The input that presents the low `nbits` bits of `w` as the command word, with the `DIN` already at the
port (notes/assumptions/13.md). -/
def tableInput (s : State) (nbits w : Nat) : Input := .command (BitVec.ofNat 32 (w % 2 ^ nbits)) s.din

end Sys2Proof.Machine
end

