-- ==== Sys2Proof/Machine/Step.lean ====
section
/-! DEFINITION. One step of the machine: the next act of the host (spec 00_scope.md R9, R10; 30_encoding.md
R89; 70_reset_and_hazards.md R230). -/

namespace Sys2Proof.Machine

/-- One step. With nothing presented the MFA is idle and keeps its state (R216). -/
def step (s : State) : Host.Outcome State Fault Refusal :=
  match s.inputs with
  | [] => .next s
  | .command cw din :: rest => transact cw (s.accept din rest)
  | .reset :: rest => .next (s.hardReset rest)
  | .abandoned _ _ :: rest => .next (s.hardReset rest)

/-- `s` with the command word `w` presented next, before whatever else the host does. The MFA holds no
program (R25): a program is the sequence of commands the host presents (notes/assumptions/5.md). -/
def State.withFetchWord (s : State) (nbits w : Nat) : State :=
  { s with inputs := tableInput s nbits w :: s.inputs }

end Sys2Proof.Machine
end

