-- ==== Sys2Proof/Safety.lean ====
section
/-! DEFINITION. What claims about the MFA are said in: the invariant of its reachable states (spec
10_state.md R27, R30, R37), what a command leaves unchanged (60_exceptions.md R209), which registers a
command names (10_state.md R23) and the conditions under which it fails (60_exceptions.md R211). -/

namespace Sys2Proof.Safety

open Sys2Proof.Machine

/-! ### The invariant -/

/-- An element is canonical: a value it holds is below `P` (R37). -/
def CanonicalElem (P : Word) (e : Option Word) : Prop := ∀ v, e = some v → v.toNat < P.toNat

/-- A share of field elements (R30). -/
def CanonicalShare (P : Word) (sh : Share) : Prop := sh.x.toNat < P.toNat ∧ sh.y.toNat < P.toNat

/-- The invariant of the reachable states of an instance with an admissible modulus. -/
structure Inv (s : State) : Prop where
  /-- `P` is prime and above `KMAX` (R7, R233). -/
  modulus : Config.ModulusOk s.P
  /-- `FV[i] = 1` implies `F[i] < P` (R37). -/
  registers : ∀ r : Reg, CanonicalElem s.P s.F[r]
  /-- `CV[i] = 1` implies `COEF[i] < P` (R37). -/
  coefficients : ∀ i : Fin 16, CanonicalElem s.P s.COEF[i]
  /-- `CV[i] = 0` for every `i >= K` (R27). -/
  polynomial : ∀ i : Fin 16, s.K ≤ i.val → s.COEF[i] = none
  /-- `K` is 0, or 2 to 16 (R27). -/
  count : s.K = 0 ∨ 2 ≤ s.K ∧ s.K ≤ Config.kmax
  /-- `i < NSH` implies `SHX[i] < P` and `SHY[i] < P` (R30, R37). -/
  shares : ∀ sh ∈ s.SH, CanonicalShare s.P sh
  /-- `NSH` is 0 to 16 (R29). -/
  capacity : s.NSH ≤ Config.kmax

/-! ### What a command leaves unchanged -/

/-- The port apart from the response: `DIN` and what the host does next. -/
abbrev SamePort (s t : State) : Prop := t.din = s.din ∧ t.inputs = s.inputs

/-- The state of the MFA, the tuple of R20 with `P`, is the same in both (R209). -/
abbrev SameMfa (s t : State) : Prop :=
  t.P = s.P ∧ t.F = s.F ∧ t.COEF = s.COEF ∧ t.K = s.K ∧ t.SH = s.SH

/-- `t` is `s` after an answer `OK` with `DOUT = d` and no effect. -/
abbrev Answers (s t : State) (d : Word) : Prop :=
  SameMfa s t ∧ SamePort s t ∧ t.response = some ⟨.ok, d⟩

/-- `t` is `s` after the error `k`: `DOUT = 0` and nothing changed (R209). -/
abbrev Errs (s t : State) (k : ErrorKind) : Prop :=
  SameMfa s t ∧ SamePort s t ∧ t.response = some ⟨.error k, 0#128⟩

/-- `t` is `s` after an answer `OK` with `DOUT = 0` and the one effect `F[rd] <- v`: every other register,
the coefficient memory, `K`, the share memory and `P` are unchanged. -/
abbrev WritesF (s t : State) (rd : Reg) (v : Word) : Prop :=
  t.F[rd] = some v ∧ (∀ r : Reg, r ≠ rd → t.F[r] = s.F[r]) ∧
  t.P = s.P ∧ t.COEF = s.COEF ∧ t.K = s.K ∧ t.SH = s.SH ∧ SamePort s t ∧
  t.response = some ⟨.ok, 0#128⟩

/-- `t` is `s` after an answer `OK` with `DOUT = 0` whose effect is on the coefficient memory and `K` alone. -/
abbrev WritesPoly (s t : State) : Prop :=
  t.P = s.P ∧ t.F = s.F ∧ t.SH = s.SH ∧ SamePort s t ∧ t.response = some ⟨.ok, 0#128⟩

/-- `t` is `s` after an answer `OK` with `DOUT = 0` whose effect is on the share memory alone. -/
abbrev WritesShares (s t : State) : Prop :=
  t.P = s.P ∧ t.F = s.F ∧ t.COEF = s.COEF ∧ t.K = s.K ∧ SamePort s t ∧
  t.response = some ⟨.ok, 0#128⟩

/-- No command of a run has failed so far, seen at one state: the latest response, if any, is `OK`. The
machine itself keeps no such record (R213). -/
def NoFailure (s : State) : Prop := ∀ r, s.response = some r → r.status = .ok

/-! ### The registers a command names (R23) -/

/-- The column `src` of R23. -/
def sources : Instr → List Reg
  | .fst ra => [ra]
  | .fmov _ ra => [ra]
  | .fneg _ ra => [ra]
  | .finv _ ra => [ra]
  | .fadd _ ra rb => [ra, rb]
  | .fsub _ ra rb => [ra, rb]
  | .fmul _ ra rb => [ra, rb]
  | .feq ra rb => [ra, rb]
  | .pldc _ ra => [ra]
  | .peval _ ra => [ra]
  | .spush ra rb => [ra, rb]
  | .fld _ => []
  | .fseti _ _ => []
  | .prdc _ _ => []
  | .srdx _ _ => []
  | .srdy _ _ => []
  | .lrecon _ => []
  | .psetk _ => []
  | .pshare _ => []
  | .crd _ => []
  | .clr _ => []

/-- The column `dst` of R23; `CLR` is the command that clears all sixteen. -/
def destination : Instr → Option Reg
  | .fld rd => some rd
  | .fseti rd _ => some rd
  | .fmov rd _ => some rd
  | .fneg rd _ => some rd
  | .finv rd _ => some rd
  | .fadd rd _ _ => some rd
  | .fsub rd _ _ => some rd
  | .fmul rd _ _ => some rd
  | .prdc rd _ => some rd
  | .peval rd _ => some rd
  | .srdx rd _ => some rd
  | .srdy rd _ => some rd
  | .lrecon rd => some rd
  | .fst _ => none
  | .feq _ _ => none
  | .pldc _ _ => none
  | .spush _ _ => none
  | .psetk _ => none
  | .pshare _ => none
  | .crd _ => none
  | .clr _ => none

/-! ### The conditions under which a command fails, by the steps of R211 -/

/-- A coefficient slot of the polynomial holds no value. -/
abbrev Incomplete (s : State) : Prop := ∃ i : Fin 16, i.val < s.K ∧ s.COEF[i] = none

/-- Step 2: the static range of the immediate. -/
def FailsStatic : Instr → Prop
  | .psetk imm | .pshare imm => 16 < imm
  | .pldc imm _ | .prdc _ imm | .srdx _ imm | .srdy _ imm => 16 ≤ imm
  | .crd imm => 5 < imm
  | .clr imm => 7 < imm
  | .fld _ | .fseti _ _ | .fst _ | .fmov _ _ | .fadd _ _ _ | .fsub _ _ _ | .fmul _ _ _ | .fneg _ _
  | .finv _ _ | .feq _ _ | .peval _ _ | .spush _ _ | .lrecon _ => False

/-- Step 3: a polynomial or interpolation command with `K = 0`, or `PSETK` with `imm <= 1`. -/
def FailsConfiguration (s : State) : Instr → Prop
  | .psetk imm => imm ≤ 1
  | .pldc _ _ | .prdc _ _ | .peval _ _ | .pshare _ | .lrecon _ => s.K = 0
  | .fld _ | .fseti _ _ | .fst _ | .fmov _ _ | .fadd _ _ _ | .fsub _ _ _ | .fmul _ _ _ | .fneg _ _
  | .finv _ _ | .feq _ _ | .spush _ _ | .srdx _ _ | .srdy _ _ | .crd _ | .clr _ => False

/-- Step 4, the counts: `LRECON` with `NSH != K`, `PSHARE` with `imm = 0` or `imm > K`. -/
def FailsCount (s : State) : Instr → Prop
  | .lrecon _ => s.NSH ≠ s.K
  | .pshare imm => imm = 0 ∨ s.K < imm
  | .fld _ | .fseti _ _ | .fst _ | .fmov _ _ | .fadd _ _ _ | .fsub _ _ _ | .fmul _ _ _ | .fneg _ _
  | .finv _ _ | .feq _ _ | .psetk _ | .pldc _ _ | .prdc _ _ | .peval _ _ | .spush _ _ | .srdx _ _
  | .srdy _ _ | .crd _ | .clr _ => False

/-- Step 4, the dynamic index range: `PLDC`, `PRDC` with `imm >= K`, `SRDX`, `SRDY` with `imm >= NSH`,
`SPUSH` at `NSH = 16`. -/
def FailsIndex (s : State) : Instr → Prop
  | .pldc imm _ | .prdc _ imm => s.K ≤ imm
  | .srdx _ imm | .srdy _ imm => s.NSH ≤ imm
  | .spush _ _ => s.NSH = 16
  | .fld _ | .fseti _ _ | .fst _ | .fmov _ _ | .fadd _ _ _ | .fsub _ _ _ | .fmul _ _ _ | .fneg _ _
  | .finv _ _ | .feq _ _ | .psetk _ | .peval _ _ | .pshare _ | .lrecon _ | .crd _ | .clr _ => False

/-- Step 5, the elements a command reads besides registers, and the canonical-range test of the
constructors. -/
def FailsElement (s : State) : Instr → Prop
  | .fld _ => s.P.toNat ≤ s.din.toNat
  | .fseti _ imm => s.P.toNat ≤ imm
  | .prdc _ imm => ∃ i : Fin 16, i.val = imm ∧ s.COEF[i] = none
  | .peval _ _ | .pshare _ => Incomplete s
  | .fst _ | .fmov _ _ | .fadd _ _ _ | .fsub _ _ _ | .fmul _ _ _ | .fneg _ _ | .finv _ _ | .feq _ _
  | .psetk _ | .pldc _ _ | .spush _ _ | .srdx _ _ | .srdy _ _ | .lrecon _ | .crd _ | .clr _ => False

/-- Step 5: the validity of every element read. -/
def FailsValidity (s : State) (i : Instr) : Prop :=
  (∃ r ∈ sources i, s.F[r] = none) ∨ FailsElement s i

/-- Step 6: the inverse of zero. -/
def FailsInverse (s : State) : Instr → Prop
  | .finv _ ra => s.F[ra] = some 0#128
  | .fld _ | .fseti _ _ | .fst _ | .fmov _ _ | .fadd _ _ _ | .fsub _ _ _ | .fmul _ _ _ | .fneg _ _
  | .feq _ _ | .psetk _ | .pldc _ _ | .prdc _ _ | .peval _ _ | .pshare _ | .spush _ _ | .srdx _ _
  | .srdy _ _ | .lrecon _ | .crd _ | .clr _ => False

/-- Step 6: a zero or repeated abscissa. -/
def FailsAbscissa (s : State) : Instr → Prop
  | .lrecon _ => (∃ x ∈ s.SHX, x = 0#128) ∨ ¬ s.SHX.Nodup
  | .fld _ | .fseti _ _ | .fst _ | .fmov _ _ | .fadd _ _ _ | .fsub _ _ _ | .fmul _ _ _ | .fneg _ _
  | .finv _ _ | .feq _ _ | .psetk _ | .pldc _ _ | .prdc _ _ | .peval _ _ | .pshare _ | .spush _ _
  | .srdx _ _ | .srdy _ _ | .crd _ | .clr _ => False

/-! ### Polynomials and shares as elements of the field -/

/-- The values of a complete polynomial: coefficient slot `i` holds `c i` for every `i < K` (R27). -/
abbrev Holds (s : State) (c : Nat → Word) : Prop :=
  ∀ i : Fin 16, i.val < s.K → s.COEF[i] = some (c i.val)

/-- `f(x) = sum over i in 0..K-1 of COEF[i] (*) x^(K-1-i)`, in the field of integers modulo `P` (R28). -/
def polyValue (s : State) (c : Nat → Word) (x : ZMod s.P.toNat) : ZMod s.P.toNat :=
  ∑ i ∈ Finset.range s.K, ((c i).toNat : ZMod s.P.toNat) * x ^ (s.K - 1 - i)

/-- A word as an element of the field of integers modulo `P`. -/
abbrev inField (P v : Word) : ZMod P.toNat := (v.toNat : ZMod P.toNat)

/-- The abscissa and the value of share `i` in the field. -/
abbrev xOf (P : Word) (l : List Share) (i : Fin l.length) : ZMod P.toNat := inField P (l[i]).x

/-- See `xOf`. -/
abbrev yOf (P : Word) (l : List Share) (i : Fin l.length) : ZMod P.toNat := inField P (l[i]).y

/-- `N_i`, the product of `x_i (-) x_j` over all the other shares (R154). -/
def productN (P : Word) (l : List Share) (i : Fin l.length) : ZMod P.toNat :=
  ∏ j ∈ Finset.univ.erase i, (xOf P l i - xOf P l j)

/-- `D_i`, the product of `(-) x_j` over all the other shares (R154). -/
def productD (P : Word) (l : List Share) (i : Fin l.length) : ZMod P.toNat :=
  ∏ j ∈ Finset.univ.erase i, (-xOf P l j)

/-- `lagrange0 = sum over i of y_i (*) D_i (*) inv(N_i)` over all the shares, in the field (R154, R156). -/
def interpolationAtZero (P : Word) (l : List Share) : ZMod P.toNat :=
  ∑ i : Fin l.length, yOf P l i * productD P l i * (productN P l i)⁻¹

/-! ### The word of a command -/

/-- The command word of `i` has these fields (R71, R72). -/
abbrev EncodesAs (i : Instr) (op rd ra rb imm : Nat) : Prop :=
  (encode i).toNat = op * 2 ^ 24 + rd * 2 ^ 20 + ra * 2 ^ 16 + rb * 2 ^ 12 + imm

/-- The architectural state is the reset state (R231). -/
abbrev AtReset (s : State) : Prop :=
  (∀ r : Reg, s.F[r] = none) ∧ (∀ i : Fin 16, s.COEF[i] = none) ∧ s.K = 0 ∧ s.SH = []

end Sys2Proof.Safety
end

