-- ==== Sys2Proof/Certificates/Slice0/Obligations.lean ====
section
/-! DEFINITION. The statements about the MFA that are to be proved, each from the rules of spec/ it cites.
`Errs`, `Answers`, `WritesF`, `WritesPoly` and `WritesShares` (Safety.lean) carry each command's frame. -/

open Sys2Proof Sys2Proof.Machine Sys2Proof.Safety

/-- FLD loads DIN when it is below P and refuses it otherwise. Formalises R101. -/
def Obligations.FldLoadsCanonicalWord : Prop :=
  ∀ (rd : Reg) (s : State),
    EncodesAs (.fld rd) 0x10 rd 0 0 0 ∧
    (s.P.toNat ≤ s.din.toNat →
      ∃ t, exec (.fld rd) s = .next t ∧ Errs s t .invalidRepresentation) ∧
    (s.din.toNat < s.P.toNat → ∃ t, exec (.fld rd) s = .next t ∧ WritesF s t rd s.din)

/-- FSETI writes its immediate when it is below P and refuses it otherwise. Formalises R102. -/
def Obligations.FsetiEmbedsImmediate : Prop :=
  ∀ (rd : Reg) (imm : Nat) (s : State),
    (imm < 4096 → EncodesAs (.fseti rd imm) 0x11 rd 0 0 imm) ∧
    (s.P.toNat ≤ imm → ∃ t, exec (.fseti rd imm) s = .next t ∧ Errs s t .invalidRepresentation) ∧
    (imm < s.P.toNat → ∃ t v, exec (.fseti rd imm) s = .next t ∧ WritesF s t rd v ∧ v.toNat = imm)

/-- FST delivers a valid register on DOUT and refuses an unwritten one. Formalises R103. -/
def Obligations.FstDeliversElement : Prop :=
  ∀ (ra : Reg) (s : State),
    EncodesAs (.fst ra) 0x12 0 ra 0 0 ∧
    (s.F[ra] = none → ∃ t, exec (.fst ra) s = .next t ∧ Errs s t .invalidRepresentation) ∧
    (∀ a, s.F[ra] = some a →
      (∃ t, exec (.fst ra) s = .next t ∧ Answers s t a) ∧ (Inv s → a.toNat < s.P.toNat))

/-- FMOV copies a valid register and refuses an unwritten one. Formalises R104. -/
def Obligations.FmovCopiesElement : Prop :=
  ∀ (rd ra : Reg) (s : State),
    EncodesAs (.fmov rd ra) 0x13 rd ra 0 0 ∧
    (s.F[ra] = none → ∃ t, exec (.fmov rd ra) s = .next t ∧ Errs s t .invalidRepresentation) ∧
    (∀ a, s.F[ra] = some a → ∃ t, exec (.fmov rd ra) s = .next t ∧ WritesF s t rd a)

/-- FADD writes the sum modulo P, without dropping a carry. Formalises R116, R110. -/
def Obligations.FaddAddsModuloP : Prop :=
  ∀ (rd ra rb : Reg) (s : State),
    EncodesAs (.fadd rd ra rb) 0x20 rd ra rb 0 ∧
    ((s.F[ra] = none ∨ s.F[rb] = none) →
      ∃ t, exec (.fadd rd ra rb) s = .next t ∧ Errs s t .invalidRepresentation) ∧
    (∀ a b, Inv s → s.F[ra] = some a → s.F[rb] = some b →
      ∃ t c, exec (.fadd rd ra rb) s = .next t ∧ WritesF s t rd c ∧
        c.toNat = (a.toNat + b.toNat) % s.P.toNat ∧
        c.toNat = (if a.toNat + b.toNat < s.P.toNat then a.toNat + b.toNat
          else a.toNat + b.toNat - s.P.toNat))

/-- FSUB writes the difference modulo P, with no wrapped result. Formalises R117, R111. -/
def Obligations.FsubSubtractsModuloP : Prop :=
  ∀ (rd ra rb : Reg) (s : State),
    EncodesAs (.fsub rd ra rb) 0x21 rd ra rb 0 ∧
    ((s.F[ra] = none ∨ s.F[rb] = none) →
      ∃ t, exec (.fsub rd ra rb) s = .next t ∧ Errs s t .invalidRepresentation) ∧
    (∀ a b, Inv s → s.F[ra] = some a → s.F[rb] = some b →
      ∃ t c, exec (.fsub rd ra rb) s = .next t ∧ WritesF s t rd c ∧
        (c.toNat : Int) = ((a.toNat : Int) - (b.toNat : Int)) % (s.P.toNat : Int) ∧
        (c.toNat : Int) = (if b.toNat ≤ a.toNat then (a.toNat : Int) - b.toNat
          else (a.toNat : Int) - b.toNat + s.P.toNat))

/-- FMUL writes the exact product modulo P. Formalises R118, R112. -/
def Obligations.FmulMultipliesModuloP : Prop :=
  ∀ (rd ra rb : Reg) (s : State),
    EncodesAs (.fmul rd ra rb) 0x22 rd ra rb 0 ∧
    ((s.F[ra] = none ∨ s.F[rb] = none) →
      ∃ t, exec (.fmul rd ra rb) s = .next t ∧ Errs s t .invalidRepresentation) ∧
    (∀ a b, Inv s → s.F[ra] = some a → s.F[rb] = some b →
      ∃ t c, exec (.fmul rd ra rb) s = .next t ∧ WritesF s t rd c ∧
        c.toNat = (a.toNat * b.toNat) % s.P.toNat ∧
        (a.toNat = 0 ∨ b.toNat = 0 → c.toNat = 0) ∧ (b.toNat = 1 → c = a) ∧ (a.toNat = 1 → c = b) ∧
        (a.toNat + 1 = s.P.toNat → b.toNat + 1 = s.P.toNat → c.toNat = 1))

/-- FNEG writes the additive inverse, 0 for 0. Formalises R119, R113. -/
def Obligations.FnegNegates : Prop :=
  ∀ (rd ra : Reg) (s : State),
    EncodesAs (.fneg rd ra) 0x23 rd ra 0 0 ∧
    (s.F[ra] = none → ∃ t, exec (.fneg rd ra) s = .next t ∧ Errs s t .invalidRepresentation) ∧
    (∀ a, Inv s → s.F[ra] = some a →
      ∃ t c, exec (.fneg rd ra) s = .next t ∧ WritesF s t rd c ∧
        (c.toNat : Int) = (0 - (a.toNat : Int)) % (s.P.toNat : Int) ∧
        c.toNat = (if a.toNat = 0 then 0 else s.P.toNat - a.toNat) ∧
        (a.toNat + c.toNat) % s.P.toNat = 0)

/-- FINV writes the unique multiplicative inverse and refuses 0. Formalises R120, R114. -/
def Obligations.FinvInvertsUniquely : Prop :=
  ∀ (rd ra : Reg) (s : State),
    EncodesAs (.finv rd ra) 0x24 rd ra 0 0 ∧
    (s.F[ra] = none → ∃ t, exec (.finv rd ra) s = .next t ∧ Errs s t .invalidRepresentation) ∧
    (s.F[ra] = some 0#128 → ∃ t, exec (.finv rd ra) s = .next t ∧ Errs s t .noninvertibleElement) ∧
    (∀ a, Inv s → s.F[ra] = some a → a ≠ 0#128 →
      ∃ t c, exec (.finv rd ra) s = .next t ∧ WritesF s t rd c ∧
        1 ≤ c.toNat ∧ c.toNat < s.P.toNat ∧ a.toNat * c.toNat % s.P.toNat = 1 ∧
        ∀ d, d < s.P.toNat → a.toNat * d % s.P.toNat = 1 → d = c.toNat)

/-- FEQ answers 1 exactly when the two elements are equal. Formalises R121, R115. -/
def Obligations.FeqComparesElements : Prop :=
  ∀ (ra rb : Reg) (s : State),
    EncodesAs (.feq ra rb) 0x25 0 ra rb 0 ∧
    ((s.F[ra] = none ∨ s.F[rb] = none) →
      ∃ t, exec (.feq ra rb) s = .next t ∧ Errs s t .invalidRepresentation) ∧
    (∀ a b, s.F[ra] = some a → s.F[rb] = some b →
      ∃ t d, exec (.feq ra rb) s = .next t ∧ Answers s t d ∧
        d.toNat = (if a.toNat = b.toNat then 1 else 0))

/-- PSETK sets K and invalidates every coefficient. Formalises R132. -/
def Obligations.PsetkBeginsPolynomial : Prop :=
  ∀ (imm : Nat) (s : State),
    (imm < 4096 → EncodesAs (.psetk imm) 0x30 0 0 0 imm) ∧
    (16 < imm → ∃ t, exec (.psetk imm) s = .next t ∧ Errs s t .illegalCommand) ∧
    (imm ≤ 1 → ∃ t, exec (.psetk imm) s = .next t ∧ Errs s t .degenerateThreshold) ∧
    (2 ≤ imm → imm ≤ 16 → ∃ t, exec (.psetk imm) s = .next t ∧ WritesPoly s t ∧ t.K = imm ∧
      ∀ i : Fin 16, t.COEF[i] = none)

/-- PLDC loads one coefficient slot after its four checks in order. Formalises R133. -/
def Obligations.PldcLoadsCoefficient : Prop :=
  ∀ (imm : Nat) (ra : Reg) (s : State),
    (imm < 4096 → EncodesAs (.pldc imm ra) 0x31 0 ra 0 imm) ∧
    (16 ≤ imm → ∃ t, exec (.pldc imm ra) s = .next t ∧ Errs s t .illegalCommand) ∧
    (imm < 16 → s.K = 0 → ∃ t, exec (.pldc imm ra) s = .next t ∧ Errs s t .degenerateThreshold) ∧
    (imm < 16 → s.K ≠ 0 → s.K ≤ imm → ∃ t, exec (.pldc imm ra) s = .next t ∧ Errs s t .illegalCommand) ∧
    (imm < 16 → imm < s.K → s.F[ra] = none →
      ∃ t, exec (.pldc imm ra) s = .next t ∧ Errs s t .invalidRepresentation) ∧
    (∀ a, imm < 16 → imm < s.K → s.F[ra] = some a →
      ∃ t, exec (.pldc imm ra) s = .next t ∧ WritesPoly s t ∧ t.K = s.K ∧
        ∀ j : Fin 16, t.COEF[j] = if j.val = imm then some a else s.COEF[j])

/-- PRDC reads one coefficient slot after its four checks in order. Formalises R134. -/
def Obligations.PrdcReadsCoefficient : Prop :=
  ∀ (rd : Reg) (imm : Nat) (s : State),
    (imm < 4096 → EncodesAs (.prdc rd imm) 0x32 rd 0 0 imm) ∧
    (16 ≤ imm → ∃ t, exec (.prdc rd imm) s = .next t ∧ Errs s t .illegalCommand) ∧
    (imm < 16 → s.K = 0 → ∃ t, exec (.prdc rd imm) s = .next t ∧ Errs s t .degenerateThreshold) ∧
    (imm < 16 → s.K ≠ 0 → s.K ≤ imm → ∃ t, exec (.prdc rd imm) s = .next t ∧ Errs s t .illegalCommand) ∧
    (∀ i : Fin 16, i.val = imm → imm < s.K → s.COEF[i] = none →
      ∃ t, exec (.prdc rd imm) s = .next t ∧ Errs s t .invalidRepresentation) ∧
    (∀ (i : Fin 16) (c : Word), i.val = imm → imm < s.K → s.COEF[i] = some c →
      ∃ t, exec (.prdc rd imm) s = .next t ∧ WritesF s t rd c)

/-- PEVAL writes the value of the polynomial at F[ra], the constant term in the last slot. Formalises R135,
R28. -/
def Obligations.PevalEvaluatesPolynomial : Prop :=
  ∀ (rd ra : Reg) (s : State),
    EncodesAs (.peval rd ra) 0x33 rd ra 0 0 ∧
    (s.K = 0 → ∃ t, exec (.peval rd ra) s = .next t ∧ Errs s t .degenerateThreshold) ∧
    (s.K ≠ 0 → (s.F[ra] = none ∨ Incomplete s) →
      ∃ t, exec (.peval rd ra) s = .next t ∧ Errs s t .invalidRepresentation) ∧
    (∀ (x : Word) (c : Nat → Word), Inv s → s.K ≠ 0 → s.F[ra] = some x → Holds s c →
      ∃ t v, exec (.peval rd ra) s = .next t ∧ WritesF s t rd v ∧ v.toNat < s.P.toNat ∧
        inField s.P v = polyValue s c (inField s.P x) ∧ (x = 0#128 → v = c (s.K - 1)))

/-- PSHARE replaces the share list by the shares at 1 to imm. Formalises R136. -/
def Obligations.PshareGeneratesShares : Prop :=
  ∀ (imm : Nat) (s : State),
    (imm < 4096 → EncodesAs (.pshare imm) 0x34 0 0 0 imm) ∧
    (16 < imm → ∃ t, exec (.pshare imm) s = .next t ∧ Errs s t .illegalCommand) ∧
    (imm ≤ 16 → s.K = 0 → ∃ t, exec (.pshare imm) s = .next t ∧ Errs s t .degenerateThreshold) ∧
    (imm ≤ 16 → s.K ≠ 0 → (imm = 0 ∨ s.K < imm) →
      ∃ t, exec (.pshare imm) s = .next t ∧ Errs s t .mismatchedLengths) ∧
    (imm ≤ 16 → imm ≠ 0 → imm ≤ s.K → Incomplete s →
      ∃ t, exec (.pshare imm) s = .next t ∧ Errs s t .invalidRepresentation) ∧
    (∀ c : Nat → Word, Inv s → imm ≠ 0 → imm ≤ s.K → Holds s c →
      ∃ t, exec (.pshare imm) s = .next t ∧ WritesShares s t ∧ t.NSH = imm ∧ ¬ badAbscissas t.SHX ∧
        ∀ i, i < imm → ∃ sh, t.SH[i]? = some sh ∧ sh.x.toNat = i + 1 ∧ sh.y.toNat < s.P.toNat ∧
          inField s.P sh.y = polyValue s c ((i + 1 : Nat) : ZMod s.P.toNat))

/-- SPUSH appends the pair of its sources to the share list. Formalises R151. -/
def Obligations.SpushAppendsShare : Prop :=
  ∀ (ra rb : Reg) (s : State),
    EncodesAs (.spush ra rb) 0x40 0 ra rb 0 ∧
    (s.NSH = 16 → ∃ t, exec (.spush ra rb) s = .next t ∧ Errs s t .illegalCommand) ∧
    (s.NSH ≠ 16 → (s.F[ra] = none ∨ s.F[rb] = none) →
      ∃ t, exec (.spush ra rb) s = .next t ∧ Errs s t .invalidRepresentation) ∧
    (∀ x y, s.NSH ≠ 16 → s.F[ra] = some x → s.F[rb] = some y →
      ∃ t, exec (.spush ra rb) s = .next t ∧ WritesShares s t ∧ t.NSH = s.NSH + 1 ∧
        t.SH[s.NSH]? = some ⟨x, y⟩ ∧ ∀ i, i < s.NSH → t.SH[i]? = s.SH[i]?)

/-- SRDX reads the abscissa of a share slot below NSH. Formalises R152. -/
def Obligations.SrdxReadsAbscissa : Prop :=
  ∀ (rd : Reg) (imm : Nat) (s : State),
    (imm < 4096 → EncodesAs (.srdx rd imm) 0x41 rd 0 0 imm) ∧
    ((16 ≤ imm ∨ s.NSH ≤ imm) → ∃ t, exec (.srdx rd imm) s = .next t ∧ Errs s t .illegalCommand) ∧
    (∀ sh, imm < 16 → s.SH[imm]? = some sh →
      ∃ t, exec (.srdx rd imm) s = .next t ∧ WritesF s t rd sh.x)

/-- SRDY reads the value of a share slot below NSH. Formalises R153. -/
def Obligations.SrdyReadsOrdinate : Prop :=
  ∀ (rd : Reg) (imm : Nat) (s : State),
    (imm < 4096 → EncodesAs (.srdy rd imm) 0x42 rd 0 0 imm) ∧
    ((16 ≤ imm ∨ s.NSH ≤ imm) → ∃ t, exec (.srdy rd imm) s = .next t ∧ Errs s t .illegalCommand) ∧
    (∀ sh, imm < 16 → s.SH[imm]? = some sh →
      ∃ t, exec (.srdy rd imm) s = .next t ∧ WritesF s t rd sh.y)

/-- LRECON writes the Lagrange interpolation at zero over all the shares. Formalises R155, R156. -/
def Obligations.LreconInterpolatesAtZero : Prop :=
  ∀ (rd : Reg) (s : State),
    EncodesAs (.lrecon rd) 0x43 rd 0 0 0 ∧
    (s.K = 0 → ∃ t, exec (.lrecon rd) s = .next t ∧ Errs s t .degenerateThreshold) ∧
    (s.K ≠ 0 → s.NSH ≠ s.K → ∃ t, exec (.lrecon rd) s = .next t ∧ Errs s t .mismatchedLengths) ∧
    (s.K ≠ 0 → s.NSH = s.K → badAbscissas s.SHX →
      ∃ t, exec (.lrecon rd) s = .next t ∧ Errs s t .duplicateOrZeroIndex) ∧
    (Inv s → s.K ≠ 0 → s.NSH = s.K → ¬ badAbscissas s.SHX →
      ∃ t v, exec (.lrecon rd) s = .next t ∧ WritesF s t rd v ∧ v.toNat < s.P.toNat ∧
        inField s.P v = interpolationAtZero s.P s.SH)

/-- CRD delivers the six CSRs and refuses every other number. Formalises R170, R32, R33, R36. -/
def Obligations.CrdReadsCsr : Prop :=
  ∀ (imm : Nat) (s : State),
    (imm < 4096 → EncodesAs (.crd imm) 0x50 0 0 0 imm) ∧
    (5 < imm → ∃ t, exec (.crd imm) s = .next t ∧ Errs s t .illegalCommand) ∧
    (imm ≤ 5 → Inv s → ∃ t d, exec (.crd imm) s = .next t ∧ Answers s t d ∧
      (imm = 0 → d.toNat = 0x80101001 ∧ d.toNat = 1 + 16 * 2 ^ 8 + 16 * 2 ^ 16 + 128 * 2 ^ 24) ∧
      (imm = 1 → d = s.P) ∧
      (imm = 2 → d.toNat = s.K) ∧
      (imm = 3 → d.toNat = s.NSH) ∧
      (imm = 4 → (∀ i : Fin 16, d.getLsbD i = s.F[i].isSome) ∧ ∀ i, 16 ≤ i → d.getLsbD i = false) ∧
      (imm = 5 → (∀ i : Fin 16, d.getLsbD i = s.COEF[i].isSome) ∧ ∀ i, 16 ≤ i → d.getLsbD i = false))

/-- CLR discards registers, polynomial and shares by its three mask bits. Formalises R171. -/
def Obligations.ClrDiscardsByMask : Prop :=
  ∀ (imm : Nat) (s : State),
    (imm < 4096 → EncodesAs (.clr imm) 0x51 0 0 0 imm) ∧
    (7 < imm → ∃ t, exec (.clr imm) s = .next t ∧ Errs s t .illegalCommand) ∧
    (imm ≤ 7 → ∃ t, exec (.clr imm) s = .next t ∧ t.response = some ⟨.ok, 0#128⟩ ∧
      t.P = s.P ∧ SamePort s t ∧
      (imm % 2 = 1 → ∀ r : Reg, t.F[r] = none) ∧ (imm % 2 = 0 → t.F = s.F) ∧
      (imm / 2 % 2 = 1 → t.K = 0 ∧ ∀ i : Fin 16, t.COEF[i] = none) ∧
      (imm / 2 % 2 = 0 → t.K = s.K ∧ t.COEF = s.COEF) ∧
      (imm / 4 % 2 = 1 → t.SH = [] ∧ t.NSH = 0) ∧ (imm / 4 % 2 = 0 → t.SH = s.SH) ∧
      (imm = 0 → SameMfa s t) ∧ (imm = 7 → AtReset t))

/-- Decoding the word of a well-formed command gives that command. Derived from R71, R72, R76, R77. -/
def Obligations.DecodeOfEncodeGivesCommandBack : Prop :=
  ∀ i : Instr, i.WellFormed → decode (encode i) = .ok i

/-- Every command word has one meaning: encoding what it decodes to gives the word back. Derived from R71,
R73, R77. -/
def Obligations.EncodeOfDecodeGivesWordBack : Prop :=
  ∀ (cw : CommandWord) (i : Instr), decode cw = .ok i → i.WellFormed ∧ encode i = cw

/-- A word is a command exactly when it matches under the mask of its opcode. Formalises R73. -/
def Obligations.WordIsCommandExactlyWhenMaskMatches : Prop :=
  (∀ (cw : CommandWord) (o : Opcode),
    ((∃ i, decode cw = .ok i ∧ i.opcode = o) ↔ cw &&& o.mask = o.matchWord) ∧
    (∀ s : State, (Fields.ofWord cw).op = o.code → cw &&& o.mask ≠ o.matchWord →
      ∃ t, transact cw s = .next t ∧ Errs s t .illegalCommand)) ∧
  (∀ s : State, (Fields.ofWord 0x20123001#32).op = Opcode.fadd.code ∧
    ∃ t, transact 0x20123001#32 s = .next t ∧ Errs s t .illegalCommand)

/-- A word with one of the 235 unassigned opcodes answers IllegalCommand. Derived from 30_encoding.md section
4, R84, R85. -/
def Obligations.UnassignedOpcodesAreIllegal : Prop :=
  ((List.range 256).filter fun n => (Opcode.ofCode (BitVec.ofNat 8 n)).isNone).length = 235 ∧
  Opcode.ofCode 0x00#8 = none ∧ Opcode.ofCode 0xFF#8 = none ∧
  ∀ (s : State) (cw : CommandWord) (din : Word) (rest : List Input),
    s.inputs = .command cw din :: rest →
    (Opcode.ofCode (Fields.ofWord cw).op = none ∨ cw = 0#32 ∨ cw = 0xFFFFFFFF#32) →
    ∃ t, step s = .next t ∧ SameMfa s t ∧ t.inputs = rest ∧
      t.response = some ⟨.error .illegalCommand, 0#128⟩

/-- One written-out word of each format decodes to its command. Derived from R76, 30_encoding.md section 5,
R87. -/
def Obligations.SampleWordsDecode : Prop :=
  decode 0x20312000#32 = .ok (.fadd 3 1 2) ∧ decode 0x24510000#32 = .ok (.finv 5 1) ∧
  decode 0x40021000#32 = .ok (.spush 2 1) ∧ decode 0x43A00000#32 = .ok (.lrecon 10) ∧
  decode 0x12060000#32 = .ok (.fst 6) ∧ decode 0x32100002#32 = .ok (.prdc 1 2) ∧
  decode 0x31010002#32 = .ok (.pldc 2 1) ∧ decode 0x30000003#32 = .ok (.psetk 3)

/-- A step that is presented a command word runs the command it decodes to. The model's choice, and no rule
of the spec: that the host's acts stand in `inputs` (notes/assumptions/5.md), that `DIN` stands in `din`
(6.md), and, in the second clause, that `withFetchWord` presents the state's own `din` as `DIN` (13.md).
Derived from R10, R77, R89. -/
def Obligations.StepRunsDecodedCommand : Prop :=
  (∀ (s : State) (cw : CommandWord) (din : Word) (rest : List Input) (i : Instr),
    s.inputs = .command cw din :: rest → decode cw = .ok i →
    i.WellFormed ∧ step s = exec i { s with din := din, inputs := rest }) ∧
  (∀ (s : State) (i : Instr), i.WellFormed →
    step (s.withFetchWord 32 (encode i).toNat) = exec i s)

/-- Every step answers a next state, determined by the state, the command, DIN and P alone. Derived from R10,
R200. -/
def Obligations.StepIsTotalAndDetermined : Prop :=
  (∀ s : State, ∃ t, step s = .next t) ∧
  (∀ (s s' : State) (cw : CommandWord) (din : Word) (rest rest' : List Input),
    SameMfa s s' → s.inputs = .command cw din :: rest → s'.inputs = .command cw din :: rest' →
    ∃ t t' r, step s = .next t ∧ step s' = .next t' ∧ SameMfa t t' ∧
      t.response = some r ∧ t'.response = some r)

/-- A step that answers an error changes no state and gives DOUT = 0. Derived from 60_exceptions.md section
2, R209, R214. -/
def Obligations.ErrorChangesNoState : Prop :=
  ∀ (s t : State) (cw : CommandWord) (din : Word) (rest : List Input) (k : ErrorKind) (d : Word),
    s.inputs = .command cw din :: rest → step s = .next t → t.response = some ⟨.error k, d⟩ →
    SameMfa s t ∧ d = 0#128

/-- STATUS is a code 0 to 7 and DOUT carries a value for FST, FEQ and CRD alone. Formalises R90. -/
def Obligations.DoutCarriesValueForThreeCommands : Prop :=
  ∀ (s t : State) (cw : CommandWord) (din : Word) (rest : List Input),
    s.inputs = .command cw din :: rest → step s = .next t →
    ∃ r, t.response = some r ∧ r.status.code.toNat ≤ 7 ∧
      (r.dout ≠ 0#128 → r.status = .ok ∧
        ∃ i, decode cw = .ok i ∧ (i.opcode = .fst ∨ i.opcode = .feq ∨ i.opcode = .crd)) ∧
      (∀ ra, decode cw = .ok (.fst ra) → r.status = .ok →
        s.F[ra] = some r.dout ∧ (Inv s → r.dout.toNat < s.P.toNat)) ∧
      (∀ ra rb, decode cw = .ok (.feq ra rb) → r.status = .ok → r.dout = 0#128 ∨ r.dout = 1#128) ∧
      (∀ imm, decode cw = .ok (.crd imm) → r.status = .ok → r.dout = s.csr imm)

/-- The status codes, and the commands that raise each error kind. Formalises R201. -/
def Obligations.StatusCodesAndWhoRaisesThem : Prop :=
  Status.ok.code = 0#4 ∧ ErrorKind.invalidRepresentation.code = 1#4 ∧
  ErrorKind.degenerateThreshold.code = 2#4 ∧ ErrorKind.mismatchedLengths.code = 3#4 ∧
  ErrorKind.duplicateOrZeroIndex.code = 4#4 ∧ ErrorKind.noninvertibleElement.code = 5#4 ∧
  ErrorKind.wrongAnswer.code = 6#4 ∧ ErrorKind.illegalCommand.code = 7#4 ∧
  ∀ (i : Instr) (s t : State), exec i s = .next t →
    ∃ r, t.response = some r ∧
      (r.status = .error .invalidRepresentation → i.opcode ∈
        [.fld, .fseti, .fst, .fmov, .fadd, .fsub, .fmul, .fneg, .finv, .feq, .pldc, .prdc, .peval,
          .pshare, .spush]) ∧
      (r.status = .error .degenerateThreshold → i.opcode = .psetk ∨
        (i.opcode ∈ [.pldc, .prdc, .peval, .pshare, .lrecon] ∧ s.K = 0)) ∧
      (r.status = .error .mismatchedLengths → (∃ rd, i = .lrecon rd ∧ s.NSH ≠ s.K) ∨
        (∃ n, i = .pshare n ∧ (n = 0 ∨ s.K < n))) ∧
      (r.status = .error .duplicateOrZeroIndex → i.opcode = .lrecon) ∧
      (r.status = .error .noninvertibleElement → i.opcode = .finv) ∧
      r.status ≠ .error .wrongAnswer ∧
      (r.status = .error .illegalCommand → i.opcode ∈
        [.psetk, .pldc, .prdc, .pshare, .spush, .srdx, .srdy, .crd, .clr])

/-- NoninvertibleElement is answered exactly by FINV with a valid source equal to 0. Formalises R206. -/
def Obligations.NoninvertibleOnlyFromFinvOfZero : Prop :=
  ∀ (i : Instr) (s t : State), exec i s = .next t →
    ((∃ d, t.response = some ⟨.error .noninvertibleElement, d⟩) ↔
      ∃ rd ra, i = .finv rd ra ∧ s.F[ra] = some 0#128)

/-- A command reports the first failing check in the order of the six steps. Formalises R211. -/
def Obligations.FirstFailingCheckIsReported : Prop :=
  (∀ (cw : CommandWord) (s : State) (e : DecodeError), decode cw = .error e →
    ∃ t, transact cw s = .next t ∧ Errs s t .illegalCommand) ∧
  ∀ (i : Instr) (s : State), ∃ t r, exec i s = .next t ∧ t.response = some r ∧
    (FailsStatic i → r.status = .error .illegalCommand) ∧
    (¬ FailsStatic i → FailsConfiguration s i → r.status = .error .degenerateThreshold) ∧
    (¬ FailsStatic i → ¬ FailsConfiguration s i → FailsCount s i → r.status = .error .mismatchedLengths) ∧
    (¬ FailsStatic i → ¬ FailsConfiguration s i → FailsIndex s i → r.status = .error .illegalCommand) ∧
    (¬ FailsStatic i → ¬ FailsConfiguration s i → ¬ FailsCount s i → ¬ FailsIndex s i →
      (FailsValidity s i → r.status = .error .invalidRepresentation) ∧
      (¬ FailsValidity s i → FailsInverse s i → r.status = .error .noninvertibleElement) ∧
      (¬ FailsValidity s i → FailsAbscissa s i → r.status = .error .duplicateOrZeroIndex) ∧
      (¬ FailsValidity s i → ¬ FailsInverse s i → ¬ FailsAbscissa s i → r.status = .ok))

/-- DIN changes neither state nor response, except for FLD. Derived from 30_encoding.md section 6, R89, R75. -/
def Obligations.DinIgnoredExceptByFld : Prop :=
  ∀ (i : Instr) (s : State) (d : Word), (∀ rd, i ≠ .fld rd) →
    ∃ t t', exec i s = .next t ∧ exec i { s with din := d } = .next t' ∧ SameMfa t t' ∧
      t'.response = t.response

/-- No read has a side effect, and repeating FST, FEQ or CRD repeats the response. Derived from 20_memory.md
section 4, R54. -/
def Obligations.ReadsHaveNoSideEffect : Prop :=
  ∀ (i : Instr) (s t : State), exec i s = .next t →
    (i.opcode ∈ [.fst, .feq, .crd] →
      SameMfa s t ∧ ∀ u, exec i t = .next u → u.response = t.response) ∧
    (i.opcode ∈ [.prdc, .peval, .srdx, .srdy, .lrecon] → t.COEF = s.COEF ∧ t.K = s.K ∧ t.SH = s.SH) ∧
    (i.opcode = .pshare → t.COEF = s.COEF ∧ t.K = s.K ∧ t.F = s.F) ∧
    (i.opcode ∈ [.spush, .pldc] → t.F = s.F)

/-- A command needs its source registers valid and writes its destination register alone. Formalises R23. -/
def Obligations.RegistersReadAndWrittenAsListed : Prop :=
  ∀ (i : Instr) (s t : State), exec i s = .next t →
    ((∃ d, t.response = some ⟨.ok, d⟩) →
      (∀ r ∈ sources i, s.F[r] ≠ none) ∧ (∀ r, destination i = some r → t.F[r] ≠ none) ∧
      (∀ imm, i = .clr imm → imm % 2 = 1 → ∀ r : Reg, t.F[r] = none)) ∧
    ((∀ imm, i = .clr imm → imm % 2 = 0) → ∀ r : Reg, destination i ≠ some r → t.F[r] = s.F[r])

/-- The modulus is changed by no command and by no reset, and reads as CSR MODULUS. Formalises R21. -/
def Obligations.ModulusIsConstant : Prop :=
  (∀ s t : State, step s = .next t → t.P = s.P) ∧
  (∀ s : State, ∃ t, exec (.crd 1) s = .next t ∧ Answers s t s.P)

/-- Every step keeps every valid element canonical, the polynomial below K and the counts in range. Derived
from 10_state.md section 7, R37, R27, R30. -/
def Obligations.StepKeepsInvariant : Prop :=
  ∀ s t : State, Inv s → step s = .next t → Inv t

/-- The reset state meets the invariant, for every admissible modulus. Derived from 10_state.md section 8,
R40, R37, 00_scope.md section 4, R7. -/
def Obligations.ResetMeetsInvariant : Prop :=
  (∀ P : Word, Config.ModulusOk P → Inv (State.resetOf P)) ∧
  State.reset = State.resetOf Config.modulus ∧ Inv State.reset

/-- After a reset nothing holds a value, K and NSH are 0 and P is unchanged. Formalises R231. -/
def Obligations.ResetEventGivesResetState : Prop :=
  ∀ (s : State) (rest : List Input), s.inputs = .reset :: rest →
    ∃ t, step s = .next t ∧ AtReset t ∧ t.NSH = 0 ∧ t.P = s.P ∧ t.inputs = rest ∧
      t.csr 0 = 0x80101001#128 ∧ t.csr 1 = s.P ∧ t.csr 2 = 0#128 ∧ t.csr 3 = 0#128 ∧
      t.csr 4 = 0#128 ∧ t.csr 5 = 0#128

/-- A reset asserted while a command executes abandons it without a response. The model's choice, and no rule
of the spec: that a reset between commands leaves the field `response` empty as well
(notes/assumptions/7.md), and that the host's acts stand in `inputs` (5.md). Derived from
70_reset_and_hazards.md section 1, R230. -/
def Obligations.ResetAbandonsCommand : Prop :=
  ∀ (s : State) (cw : CommandWord) (din : Word) (rest : List Input),
    (s.inputs = .abandoned cw din :: rest → ∃ t, step s = .next t ∧ AtReset t ∧ t.P = s.P ∧
      t.inputs = rest ∧ t.response = none ∧ step { s with inputs := .reset :: rest } = .next t) ∧
    (∃ u, exec (.clr 7) s = .next u ∧ SameMfa (s.hardReset rest) u)

/-- What every command answers right after reset. Derived from 70_reset_and_hazards.md section 1, R232, R231. -/
def Obligations.AnswersRightAfterReset : Prop :=
  ∀ (s : State) (rd ra rb : Reg) (imm : Nat), AtReset s →
    (∀ i ∈ ([.fst ra, .fmov rd ra, .fadd rd ra rb, .fsub rd ra rb, .fmul rd ra rb, .fneg rd ra,
        .finv rd ra, .feq ra rb, .spush ra rb] : List Instr),
      ∃ t, exec i s = .next t ∧ Errs s t .invalidRepresentation) ∧
    (imm < 16 → ∀ i ∈ ([.pldc imm ra, .prdc rd imm] : List Instr),
      ∃ t, exec i s = .next t ∧ Errs s t .degenerateThreshold) ∧
    (imm ≤ 16 → ∀ i ∈ ([.peval rd ra, .pshare imm, .lrecon rd] : List Instr),
      ∃ t, exec i s = .next t ∧ Errs s t .degenerateThreshold) ∧
    (∀ i ∈ ([.srdx rd imm, .srdy rd imm] : List Instr),
      ∃ t, exec i s = .next t ∧ Errs s t .illegalCommand) ∧
    (∀ i : Instr,
      (i = .fld rd ∧ s.din.toNat < s.P.toNat) ∨ (i = .fseti rd imm ∧ imm < s.P.toNat) ∨
      (i = .psetk imm ∧ 2 ≤ imm ∧ imm ≤ 16) ∨ (i = .crd imm ∧ imm ≤ 5) ∨ (i = .clr imm ∧ imm ≤ 7) →
      ∃ t d, exec i s = .next t ∧ t.response = some ⟨.ok, d⟩)

/-- PEVAL at 0, PSHARE against PEVAL, and PSHARE K then LRECON returns the secret. Derived from
42_polynomial_evaluator.md section 3, R137. -/
def Obligations.ShareAndReconstructRoundTrip : Prop :=
  ∀ (s : State) (c : Nat → Word), Inv s → s.K ≠ 0 → Holds s c →
    (∀ rd ra : Reg, s.F[ra] = some 0#128 →
      ∃ t, exec (.peval rd ra) s = .next t ∧ WritesF s t rd (c (s.K - 1))) ∧
    (∀ n, 1 ≤ n → n ≤ s.K → ∃ t, exec (.pshare n) s = .next t ∧ t.NSH = n ∧
      ∀ (i : Nat) (rd ra : Reg), i < n → s.F[ra] = some (BitVec.ofNat 128 (i + 1)) →
        ∃ u sh, exec (.peval rd ra) s = .next u ∧ t.SH[i]? = some sh ∧ u.F[rd] = some sh.y) ∧
    (∀ rd : Reg, ∃ t u, exec (.pshare s.K) s = .next t ∧ exec (.lrecon rd) t = .next u ∧
      WritesF t u rd (c (s.K - 1)))

/-- LRECON from K points of a polynomial at any nonzero distinct abscissas gives its constant term. The
model's choice, and no rule of the spec: the second clause has no premise on the modulus, and under an
inadmissible one, to which R233 gives no meaning, LRECON still answers OK (notes/assumptions/9.md).
Derived from 43_lagrange_interpolation.md section 3, R159. -/
def Obligations.ReconstructFromAnyPoints : Prop :=
  (∀ (s : State) (c : Nat → Word) (rd : Reg), Inv s → s.K ≠ 0 → s.NSH = s.K → ¬ badAbscissas s.SHX →
    (∀ i, i < s.K → (c i).toNat < s.P.toNat) →
    (∀ sh ∈ s.SH, inField s.P sh.y = polyValue s c (inField s.P sh.x)) →
    ∃ t, exec (.lrecon rd) s = .next t ∧ WritesF s t rd (c (s.K - 1))) ∧
  (∀ (s : State) (rd : Reg), s.K ≠ 0 → s.NSH = s.K → ¬ badAbscissas s.SHX →
    ∃ t v, exec (.lrecon rd) s = .next t ∧ WritesF s t rd v)

/-- LRECON gives the same answer and the same result for every order of the shares. Derived from
43_lagrange_interpolation.md section 3, R157. -/
def Obligations.SlotOrderDoesNotMatter : Prop :=
  ∀ (s : State) (l : List Share) (rd : Reg), Inv s → l.Perm s.SH →
    ∃ t u, exec (.lrecon rd) s = .next t ∧ exec (.lrecon rd) (s.setShares l) = .next u ∧
      u.response = t.response ∧ u.F = t.F

/-- LRECON equals the first form, the sum of y_i times the product of x_j / (x_j - x_i). Derived from
43_lagrange_interpolation.md section 2, R154. -/
def Obligations.FirstFormOfInterpolation : Prop :=
  ∀ (s : State) (rd : Reg), Inv s → s.K ≠ 0 → s.NSH = s.K → ¬ badAbscissas s.SHX →
    ∃ t v, exec (.lrecon rd) s = .next t ∧ WritesF s t rd v ∧
      inField s.P v = ∑ i : Fin s.SH.length, yOf s.P s.SH i *
        ∏ j ∈ Finset.univ.erase i, (xOf s.P s.SH j * (xOf s.P s.SH j - xOf s.P s.SH i)⁻¹)

/-- LRECON never answers NoninvertibleElement, and every N_i it inverts is nonzero. Derived from
43_lagrange_interpolation.md section 3, R158. -/
def Obligations.LreconNeverNoninvertible : Prop :=
  (∀ (s t : State) (rd : Reg), exec (.lrecon rd) s = .next t →
    ∃ r, t.response = some r ∧ r.status ≠ .error .noninvertibleElement) ∧
  (∀ s : State, Inv s → ¬ badAbscissas s.SHX →
    ∀ i : Fin s.SH.length, (∀ j, j ≠ i → xOf s.P s.SH i - xOf s.P s.SH j ≠ 0) ∧
      productN s.P s.SH i ≠ 0) ∧
  (∀ (s : State) (rd : Reg), s.K ≠ 0 → s.NSH = s.K → ¬ s.SHX.Nodup →
    ∃ t, exec (.lrecon rd) s = .next t ∧ Errs s t .duplicateOrZeroIndex)

/-- The laws of the field hold of the arithmetic the commands use. Derived from 41_field_arithmetic.md
section 1, R122. -/
def Obligations.FieldLaws : Prop :=
  ∀ (P : Word) (a b c : Nat), Config.ModulusOk P → a < P.toNat → b < P.toNat → c < P.toNat →
    let p := P.toNat
    Field.add p a b < p ∧ Field.mul p a b < p ∧
    Field.add p a b = Field.add p b a ∧ Field.mul p a b = Field.mul p b a ∧
    Field.add p (Field.add p a b) c = Field.add p a (Field.add p b c) ∧
    Field.mul p (Field.mul p a b) c = Field.mul p a (Field.mul p b c) ∧
    (a ≠ 0 → Field.mul p (Field.inv p a) a = 1) ∧
    Field.sub p a b = Field.add p a (Field.neg p b) ∧
    Field.mul p a (Field.add p b c) = Field.add p (Field.mul p a b) (Field.mul p a c) ∧
    Field.sub p (Field.add p a b) b = a

/-- Horner's method computes the polynomial exactly, highest power first. Formalises R131. -/
def Obligations.HornerIsThePolynomial : Prop :=
  ∀ (p : Nat) (cs : List Nat) (x : Nat), 0 < p →
    Field.horner p [] x = 0 ∧
    (∀ c, Field.horner p (cs ++ [c]) x = (Field.horner p cs x * x % p + c) % p) ∧
    ((Field.horner p cs x : Nat) : ZMod p) =
      ∑ i ∈ Finset.range cs.length, ((cs.getD i 0 : Nat) : ZMod p) * (x : ZMod p) ^ (cs.length - 1 - i) ∧
    (∀ c, c < p → Field.horner p (cs ++ [c]) 0 = c)

/-- FADD of a key and then FSUB of the same key gives the value back. Derived from 41_field_arithmetic.md
section 1, R122, 45_host_protocols.md R183, R184. -/
def Obligations.MaskThenUnmaskGivesValueBack : Prop :=
  ∀ (s : State) (ra rb rm rd : Reg) (y k : Word), Inv s → s.F[ra] = some y → s.F[rb] = some k →
    rm ≠ rb → ∃ t u, exec (.fadd rm ra rb) s = .next t ∧ exec (.fsub rd rm rb) t = .next u ∧
      WritesF t u rd y

/-- FINV and then FMUL by the same element gives 1. Derived from 41_field_arithmetic.md section 1, R122,
R114. -/
def Obligations.InverseTimesElementIsOne : Prop :=
  ∀ (s : State) (ra rm rd : Reg) (a : Word), Inv s → s.F[ra] = some a → a ≠ 0#128 → rm ≠ ra →
    ∃ t u, exec (.finv rm ra) s = .next t ∧ exec (.fmul rd rm ra) t = .next u ∧ WritesF t u rd 1#128

/-- A port word is the sum of its byte lanes, lane 0 least significant. Derived from 20_memory.md section 2,
R51. -/
def Obligations.ByteLanesMakeUpWord : Prop :=
  ∀ w : Word, w.toNat = ∑ j : Fin 16, (byteLane w j).toNat * 2 ^ (8 * j.val)
end

