-- ==== Sys2Proof/Laws/Codec.lean ====
section
/-! SUPPORT. The fields of a command word and the opcode map, each way (spec 30_encoding.md R71, R76). -/

namespace Sys2Proof

/-! ### Fields as integers -/

theorem Fields.ext {f g : Fields} (hop : f.op = g.op) (hrd : f.rd = g.rd) (hra : f.ra = g.ra)
    (hrb : f.rb = g.rb) (himm : f.imm = g.imm) : f = g := by
  cases f; cases g; simp_all

theorem toNat_append_eq {m n : Nat} (x : BitVec m) (y : BitVec n) :
    (x ++ y).toNat = x.toNat * 2 ^ n + y.toNat := by
  rw [BitVec.toNat_append, ← Nat.shiftLeft_add_eq_or_of_lt y.isLt, Nat.shiftLeft_eq]

/-- A command word as an integer, field by field (R71). -/
theorem Fields.toNat_toWord (f : Fields) :
    f.toWord.toNat = f.op.toNat * 2 ^ 24 + f.rd.toNat * 2 ^ 20 + f.ra.toNat * 2 ^ 16 +
      f.rb.toNat * 2 ^ 12 + f.imm.toNat := by
  have h : f.toWord.toNat =
      (((f.op.toNat * 2 ^ 4 + f.rd.toNat) * 2 ^ 4 + f.ra.toNat) * 2 ^ 4 + f.rb.toNat) * 2 ^ 12 +
        f.imm.toNat := by
    rw [← toNat_append_eq, ← toNat_append_eq, ← toNat_append_eq, ← toNat_append_eq]
    rfl
  rw [h]
  ring

theorem Fields.ofWord_op (cw : CommandWord) : (Fields.ofWord cw).op.toNat = cw.toNat / 2 ^ 24 := by
  have := cw.isLt
  simp only [Fields.ofWord, BitVec.extractLsb'_toNat, Nat.shiftRight_eq_div_pow]
  omega

theorem Fields.ofWord_rd (cw : CommandWord) : (Fields.ofWord cw).rd.toNat = cw.toNat / 2 ^ 20 % 2 ^ 4 := by
  simp only [Fields.ofWord, BitVec.extractLsb'_toNat, Nat.shiftRight_eq_div_pow]

theorem Fields.ofWord_ra (cw : CommandWord) : (Fields.ofWord cw).ra.toNat = cw.toNat / 2 ^ 16 % 2 ^ 4 := by
  simp only [Fields.ofWord, BitVec.extractLsb'_toNat, Nat.shiftRight_eq_div_pow]

theorem Fields.ofWord_rb (cw : CommandWord) : (Fields.ofWord cw).rb.toNat = cw.toNat / 2 ^ 12 % 2 ^ 4 := by
  simp only [Fields.ofWord, BitVec.extractLsb'_toNat, Nat.shiftRight_eq_div_pow]

theorem Fields.ofWord_imm (cw : CommandWord) : (Fields.ofWord cw).imm.toNat = cw.toNat % 2 ^ 12 := by
  simp only [Fields.ofWord, BitVec.extractLsb'_toNat, Nat.shiftRight_eq_div_pow]
  omega

/-- A word is its five fields (R71). -/
@[simp] theorem Fields.toWord_ofWord (cw : CommandWord) : (Fields.ofWord cw).toWord = cw := by
  have := cw.isLt
  apply BitVec.eq_of_toNat_eq
  rw [Fields.toNat_toWord, Fields.ofWord_op, Fields.ofWord_rd, Fields.ofWord_ra, Fields.ofWord_rb,
    Fields.ofWord_imm]
  omega

/-- Five fields are those of their word (R71). -/
@[simp] theorem Fields.ofWord_toWord (f : Fields) : Fields.ofWord f.toWord = f := by
  have h := Fields.toNat_toWord f
  have hop := f.op.isLt
  have hrd := f.rd.isLt
  have hra := f.ra.isLt
  have hrb := f.rb.isLt
  have himm := f.imm.isLt
  have e1 : (Fields.ofWord f.toWord).op = f.op := by
    apply BitVec.eq_of_toNat_eq; rw [Fields.ofWord_op]; omega
  have e2 : (Fields.ofWord f.toWord).rd = f.rd := by
    apply BitVec.eq_of_toNat_eq; rw [Fields.ofWord_rd]; omega
  have e3 : (Fields.ofWord f.toWord).ra = f.ra := by
    apply BitVec.eq_of_toNat_eq; rw [Fields.ofWord_ra]; omega
  have e4 : (Fields.ofWord f.toWord).rb = f.rb := by
    apply BitVec.eq_of_toNat_eq; rw [Fields.ofWord_rb]; omega
  have e5 : (Fields.ofWord f.toWord).imm = f.imm := by
    apply BitVec.eq_of_toNat_eq; rw [Fields.ofWord_imm]; omega
  exact Fields.ext e1 e2 e3 e4 e5

/-! ### Operand fields -/

@[simp] theorem regOf_regField (r : Reg) : regOf (regField r) = r := rfl

@[simp] theorem regField_regOf (f : BitVec 4) : regField (regOf f) = f := rfl

@[simp] theorem regField_toNat (r : Reg) : (regField r).toNat = r.val := rfl

theorem immField_toNat {imm : Nat} (h : immFits imm = true) : (immField imm).toNat = imm := by
  have : imm < 4096 := by simpa [immFits] using h
  simpa [immField] using this

@[simp] theorem immField_toNat_self (f : BitVec 12) : immField f.toNat = f := by
  simp [immField]

theorem immFits_toNat (f : BitVec 12) : immFits f.toNat = true := by
  simpa [immFits] using f.isLt

/-! ### The opcode map -/

/-- Every opcode is found under its own number. -/
@[simp] theorem Opcode.ofCode_code (o : Opcode) : Opcode.ofCode o.code = some o := by
  cases o <;> decide

/-- A number under which an opcode is found is that opcode's. -/
theorem Opcode.code_of_ofCode {c : BitVec 8} {o : Opcode} (h : Opcode.ofCode c = some o) : o.code = c := by
  simpa using List.find?_some h

/-- What a decoded word is (R77): an assigned opcode, no must-be-zero field set, the command built from the
fields. -/
theorem decode_eq_ok {cw : CommandWord} {i : Instr} :
    decode cw = .ok i ↔ ∃ o, Opcode.ofCode (Fields.ofWord cw).op = some o ∧
      (Fields.ofWord cw).fits o.format = true ∧ o.build (Fields.ofWord cw) = i := by
  cases h : Opcode.ofCode (Fields.ofWord cw).op with
  | none => simp [decode, h]
  | some o => by_cases hf : (Fields.ofWord cw).fits o.format = true <;> simp [decode, h, hf]

@[simp] theorem Opcode.opcode_build (o : Opcode) (f : Fields) : (o.build f).opcode = o := by
  cases o <;> rfl

@[simp] theorem Instr.fields_op (i : Instr) : i.fields.op = i.opcode.code := by
  cases i <;> rfl

end Sys2Proof
end

