-- ==== Sys2Proof/Laws/State.lean ====
section
/-! SUPPORT. One lemma per field per update of State, so that no later proof unfolds a record update. -/

namespace Sys2Proof.Machine

/-! ### `writeF` -/

@[simp] theorem State.writeF_P (s : State) (r : Reg) (v : Word) : (s.writeF r v).P = s.P := rfl
@[simp] theorem State.writeF_F (s : State) (r : Reg) (v : Word) : (s.writeF r v).F = s.F.set r (some v) := rfl
@[simp] theorem State.writeF_COEF (s : State) (r : Reg) (v : Word) : (s.writeF r v).COEF = s.COEF := rfl
@[simp] theorem State.writeF_K (s : State) (r : Reg) (v : Word) : (s.writeF r v).K = s.K := rfl
@[simp] theorem State.writeF_SH (s : State) (r : Reg) (v : Word) : (s.writeF r v).SH = s.SH := rfl
@[simp] theorem State.writeF_din (s : State) (r : Reg) (v : Word) : (s.writeF r v).din = s.din := rfl
@[simp] theorem State.writeF_inputs (s : State) (r : Reg) (v : Word) : (s.writeF r v).inputs = s.inputs := rfl
@[simp] theorem State.writeF_response (s : State) (r : Reg) (v : Word) : (s.writeF r v).response = s.response := rfl

/-! ### `writeCoef` -/

@[simp] theorem State.writeCoef_P (s : State) (i : Nat) (v : Word) : (s.writeCoef i v).P = s.P := rfl
@[simp] theorem State.writeCoef_F (s : State) (i : Nat) (v : Word) : (s.writeCoef i v).F = s.F := rfl
@[simp] theorem State.writeCoef_COEF (s : State) (i : Nat) (v : Word) : (s.writeCoef i v).COEF = s.COEF.setIfInBounds i (some v) := rfl
@[simp] theorem State.writeCoef_K (s : State) (i : Nat) (v : Word) : (s.writeCoef i v).K = s.K := rfl
@[simp] theorem State.writeCoef_SH (s : State) (i : Nat) (v : Word) : (s.writeCoef i v).SH = s.SH := rfl
@[simp] theorem State.writeCoef_din (s : State) (i : Nat) (v : Word) : (s.writeCoef i v).din = s.din := rfl
@[simp] theorem State.writeCoef_inputs (s : State) (i : Nat) (v : Word) : (s.writeCoef i v).inputs = s.inputs := rfl
@[simp] theorem State.writeCoef_response (s : State) (i : Nat) (v : Word) : (s.writeCoef i v).response = s.response := rfl

/-! ### `setK` -/

@[simp] theorem State.setK_P (s : State) (k : Nat) : (s.setK k).P = s.P := rfl
@[simp] theorem State.setK_F (s : State) (k : Nat) : (s.setK k).F = s.F := rfl
@[simp] theorem State.setK_COEF (s : State) (k : Nat) : (s.setK k).COEF = Vector.replicate 16 none := rfl
@[simp] theorem State.setK_K (s : State) (k : Nat) : (s.setK k).K = k := rfl
@[simp] theorem State.setK_SH (s : State) (k : Nat) : (s.setK k).SH = s.SH := rfl
@[simp] theorem State.setK_din (s : State) (k : Nat) : (s.setK k).din = s.din := rfl
@[simp] theorem State.setK_inputs (s : State) (k : Nat) : (s.setK k).inputs = s.inputs := rfl
@[simp] theorem State.setK_response (s : State) (k : Nat) : (s.setK k).response = s.response := rfl

/-! ### `setShares` -/

@[simp] theorem State.setShares_P (s : State) (l : List Share) : (s.setShares l).P = s.P := rfl
@[simp] theorem State.setShares_F (s : State) (l : List Share) : (s.setShares l).F = s.F := rfl
@[simp] theorem State.setShares_COEF (s : State) (l : List Share) : (s.setShares l).COEF = s.COEF := rfl
@[simp] theorem State.setShares_K (s : State) (l : List Share) : (s.setShares l).K = s.K := rfl
@[simp] theorem State.setShares_SH (s : State) (l : List Share) : (s.setShares l).SH = l := rfl
@[simp] theorem State.setShares_din (s : State) (l : List Share) : (s.setShares l).din = s.din := rfl
@[simp] theorem State.setShares_inputs (s : State) (l : List Share) : (s.setShares l).inputs = s.inputs := rfl
@[simp] theorem State.setShares_response (s : State) (l : List Share) : (s.setShares l).response = s.response := rfl

/-! ### `pushShare` -/

@[simp] theorem State.pushShare_P (s : State) (x y : Word) : (s.pushShare x y).P = s.P := rfl
@[simp] theorem State.pushShare_F (s : State) (x y : Word) : (s.pushShare x y).F = s.F := rfl
@[simp] theorem State.pushShare_COEF (s : State) (x y : Word) : (s.pushShare x y).COEF = s.COEF := rfl
@[simp] theorem State.pushShare_K (s : State) (x y : Word) : (s.pushShare x y).K = s.K := rfl
@[simp] theorem State.pushShare_SH (s : State) (x y : Word) : (s.pushShare x y).SH = s.SH ++ [⟨x, y⟩] := rfl
@[simp] theorem State.pushShare_din (s : State) (x y : Word) : (s.pushShare x y).din = s.din := rfl
@[simp] theorem State.pushShare_inputs (s : State) (x y : Word) : (s.pushShare x y).inputs = s.inputs := rfl
@[simp] theorem State.pushShare_response (s : State) (x y : Word) : (s.pushShare x y).response = s.response := rfl

/-! ### `clearF` -/

@[simp] theorem State.clearF_P (s : State) : (s.clearF).P = s.P := rfl
@[simp] theorem State.clearF_F (s : State) : (s.clearF).F = Vector.replicate 16 none := rfl
@[simp] theorem State.clearF_COEF (s : State) : (s.clearF).COEF = s.COEF := rfl
@[simp] theorem State.clearF_K (s : State) : (s.clearF).K = s.K := rfl
@[simp] theorem State.clearF_SH (s : State) : (s.clearF).SH = s.SH := rfl
@[simp] theorem State.clearF_din (s : State) : (s.clearF).din = s.din := rfl
@[simp] theorem State.clearF_inputs (s : State) : (s.clearF).inputs = s.inputs := rfl
@[simp] theorem State.clearF_response (s : State) : (s.clearF).response = s.response := rfl

/-! ### `respond` -/

@[simp] theorem State.respond_P (s : State) (d : Word) : (s.respond d).P = s.P := rfl
@[simp] theorem State.respond_F (s : State) (d : Word) : (s.respond d).F = s.F := rfl
@[simp] theorem State.respond_COEF (s : State) (d : Word) : (s.respond d).COEF = s.COEF := rfl
@[simp] theorem State.respond_K (s : State) (d : Word) : (s.respond d).K = s.K := rfl
@[simp] theorem State.respond_SH (s : State) (d : Word) : (s.respond d).SH = s.SH := rfl
@[simp] theorem State.respond_din (s : State) (d : Word) : (s.respond d).din = s.din := rfl
@[simp] theorem State.respond_inputs (s : State) (d : Word) : (s.respond d).inputs = s.inputs := rfl
@[simp] theorem State.respond_response (s : State) (d : Word) : (s.respond d).response = some ⟨.ok, d⟩ := rfl

/-! ### `raise` -/

@[simp] theorem State.raise_P (s : State) (k : ErrorKind) : (s.raise k).P = s.P := rfl
@[simp] theorem State.raise_F (s : State) (k : ErrorKind) : (s.raise k).F = s.F := rfl
@[simp] theorem State.raise_COEF (s : State) (k : ErrorKind) : (s.raise k).COEF = s.COEF := rfl
@[simp] theorem State.raise_K (s : State) (k : ErrorKind) : (s.raise k).K = s.K := rfl
@[simp] theorem State.raise_SH (s : State) (k : ErrorKind) : (s.raise k).SH = s.SH := rfl
@[simp] theorem State.raise_din (s : State) (k : ErrorKind) : (s.raise k).din = s.din := rfl
@[simp] theorem State.raise_inputs (s : State) (k : ErrorKind) : (s.raise k).inputs = s.inputs := rfl
@[simp] theorem State.raise_response (s : State) (k : ErrorKind) : (s.raise k).response = some ⟨.error k, 0#128⟩ := rfl

/-! ### `accept` -/

@[simp] theorem State.accept_P (s : State) (din : Word) (rest : List Input) : (s.accept din rest).P = s.P := rfl
@[simp] theorem State.accept_F (s : State) (din : Word) (rest : List Input) : (s.accept din rest).F = s.F := rfl
@[simp] theorem State.accept_COEF (s : State) (din : Word) (rest : List Input) : (s.accept din rest).COEF = s.COEF := rfl
@[simp] theorem State.accept_K (s : State) (din : Word) (rest : List Input) : (s.accept din rest).K = s.K := rfl
@[simp] theorem State.accept_SH (s : State) (din : Word) (rest : List Input) : (s.accept din rest).SH = s.SH := rfl
@[simp] theorem State.accept_din (s : State) (din : Word) (rest : List Input) : (s.accept din rest).din = din := rfl
@[simp] theorem State.accept_inputs (s : State) (din : Word) (rest : List Input) : (s.accept din rest).inputs = rest := rfl
@[simp] theorem State.accept_response (s : State) (din : Word) (rest : List Input) : (s.accept din rest).response = s.response := rfl

/-! ### `hardReset` -/

@[simp] theorem State.hardReset_P (s : State) (rest : List Input) : (s.hardReset rest).P = s.P := rfl
@[simp] theorem State.hardReset_F (s : State) (rest : List Input) : (s.hardReset rest).F = Vector.replicate 16 none := rfl
@[simp] theorem State.hardReset_COEF (s : State) (rest : List Input) : (s.hardReset rest).COEF = Vector.replicate 16 none := rfl
@[simp] theorem State.hardReset_K (s : State) (rest : List Input) : (s.hardReset rest).K = 0 := rfl
@[simp] theorem State.hardReset_SH (s : State) (rest : List Input) : (s.hardReset rest).SH = [] := rfl
@[simp] theorem State.hardReset_din (s : State) (rest : List Input) : (s.hardReset rest).din = 0#128 := rfl
@[simp] theorem State.hardReset_inputs (s : State) (rest : List Input) : (s.hardReset rest).inputs = rest := rfl
@[simp] theorem State.hardReset_response (s : State) (rest : List Input) : (s.hardReset rest).response = none := rfl

/-! ### `withFetchWord` -/

@[simp] theorem State.withFetchWord_P (s : State) (nbits w : Nat) : (s.withFetchWord nbits w).P = s.P := rfl
@[simp] theorem State.withFetchWord_F (s : State) (nbits w : Nat) : (s.withFetchWord nbits w).F = s.F := rfl
@[simp] theorem State.withFetchWord_COEF (s : State) (nbits w : Nat) : (s.withFetchWord nbits w).COEF = s.COEF := rfl
@[simp] theorem State.withFetchWord_K (s : State) (nbits w : Nat) : (s.withFetchWord nbits w).K = s.K := rfl
@[simp] theorem State.withFetchWord_SH (s : State) (nbits w : Nat) : (s.withFetchWord nbits w).SH = s.SH := rfl
@[simp] theorem State.withFetchWord_din (s : State) (nbits w : Nat) : (s.withFetchWord nbits w).din = s.din := rfl
@[simp] theorem State.withFetchWord_inputs (s : State) (nbits w : Nat) : (s.withFetchWord nbits w).inputs = tableInput s nbits w :: s.inputs := rfl
@[simp] theorem State.withFetchWord_response (s : State) (nbits w : Nat) : (s.withFetchWord nbits w).response = s.response := rfl

/-! ### `resetOf` -/

@[simp] theorem State.resetOf_P (P : Word) : (State.resetOf P).P = P := rfl
@[simp] theorem State.resetOf_F (P : Word) : (State.resetOf P).F = Vector.replicate 16 none := rfl
@[simp] theorem State.resetOf_COEF (P : Word) : (State.resetOf P).COEF = Vector.replicate 16 none := rfl
@[simp] theorem State.resetOf_K (P : Word) : (State.resetOf P).K = 0 := rfl
@[simp] theorem State.resetOf_SH (P : Word) : (State.resetOf P).SH = [] := rfl
@[simp] theorem State.resetOf_din (P : Word) : (State.resetOf P).din = 0#128 := rfl
@[simp] theorem State.resetOf_inputs (P : Word) : (State.resetOf P).inputs = [] := rfl
@[simp] theorem State.resetOf_response (P : Word) : (State.resetOf P).response = none := rfl

/-! ### Registers and coefficients after a write -/

@[simp] theorem State.writeF_get_self (s : State) (r : Reg) (v : Word) : (s.writeF r v).F[r] = some v := by
  simp

theorem State.writeF_get_other (s : State) {r q : Reg} (v : Word) (h : q ≠ r) :
    (s.writeF r v).F[q] = s.F[q] := by
  have hv : r.val ≠ q.val := fun e => h (Fin.ext e.symm)
  simp [hv]

theorem State.writeCoef_get_self (s : State) (i : Fin 16) (v : Word) :
    (s.writeCoef i v).COEF[i] = some v := by
  simp

theorem State.writeCoef_get_other (s : State) {i : Nat} {j : Fin 16} (v : Word) (h : j.val ≠ i) :
    (s.writeCoef i v).COEF[j] = s.COEF[j] := by
  simp [h.symm]

/-! ### Views -/

@[simp] theorem State.writeF_NSH (s : State) (r : Reg) (v : Word) : (s.writeF r v).NSH = s.NSH := rfl
@[simp] theorem State.setShares_NSH (s : State) (l : List Share) : (s.setShares l).NSH = l.length := rfl
@[simp] theorem State.pushShare_NSH (s : State) (x y : Word) : (s.pushShare x y).NSH = s.NSH + 1 := by
  simp [State.NSH]

theorem State.NSH_eq (s : State) : s.NSH = s.SH.length := rfl

/-- Accepting the input that `withFetchWord` presents leaves the state as it was before. -/
@[simp] theorem State.accept_self (s : State) : s.accept s.din s.inputs = s := rfl

/-! ### The three discards of `CLR` -/

theorem State.clear_P (s : State) (m : Nat) : (s.clear m).P = s.P := by
  unfold State.clear; split <;> split <;> split <;> rfl

theorem State.clear_din (s : State) (m : Nat) : (s.clear m).din = s.din := by
  unfold State.clear; split <;> split <;> split <;> rfl

theorem State.clear_inputs (s : State) (m : Nat) : (s.clear m).inputs = s.inputs := by
  unfold State.clear; split <;> split <;> split <;> rfl

theorem State.clear_F (s : State) (m : Nat) :
    (s.clear m).F = if m.testBit 0 then Vector.replicate 16 none else s.F := by
  unfold State.clear; split <;> split <;> split <;> rfl

theorem State.clear_COEF (s : State) (m : Nat) :
    (s.clear m).COEF = if m.testBit 1 then Vector.replicate 16 none else s.COEF := by
  unfold State.clear; split <;> split <;> split <;> rfl

theorem State.clear_K (s : State) (m : Nat) : (s.clear m).K = if m.testBit 1 then 0 else s.K := by
  unfold State.clear; split <;> split <;> split <;> rfl

theorem State.clear_SH (s : State) (m : Nat) : (s.clear m).SH = if m.testBit 2 then [] else s.SH := by
  unfold State.clear; split <;> split <;> split <;> rfl

end Sys2Proof.Machine
end

