-- ==== Sys2Proof/Laws/Ops.lean ====
section
/-! SUPPORT. What each shared operation can do, said once: the checks, the operand reads and the way a command
ends. Provers cite these instead of unfolding the operations. -/

namespace Sys2Proof.Machine

variable {α : Type}

/-! ### A sequence of checks -/

@[simp] theorem bind_ok {β : Type} (a : α) (f : α → Except ErrorKind β) :
    (Except.ok a >>= f : Except ErrorKind β) = f a := rfl

@[simp] theorem bind_error {β : Type} (k : ErrorKind) (f : α → Except ErrorKind β) :
    (Except.error k >>= f : Except ErrorKind β) = Except.error k := rfl

theorem raiseIf_pos {c : Prop} [Decidable c] (h : c) (k : ErrorKind) : raiseIf c k = .error k := if_pos h

theorem raiseIf_neg {c : Prop} [Decidable c] (h : ¬ c) (k : ErrorKind) : raiseIf c k = .ok () := if_neg h

/-- A check in front of the rest of a command. -/
theorem raiseIf_bind {c : Prop} [Decidable c] (k : ErrorKind) (f : Unit → Except ErrorKind α) :
    (raiseIf c k >>= f : Except ErrorKind α) = if c then .error k else f () := by
  by_cases h : c
  · rw [raiseIf_pos h, if_pos h]; rfl
  · rw [raiseIf_neg h, if_neg h]; rfl

/-! ### Operand reads -/

@[simp] theorem valueOf_some (v : Word) : valueOf (some v) = .ok v := rfl

@[simp] theorem valueOf_none : valueOf none = .error .invalidRepresentation := rfl

theorem State.readF_some {s : State} {r : Reg} {v : Word} (h : s.F[r] = some v) : s.readF r = .ok v := by
  rw [State.readF, h, valueOf_some]

theorem State.readF_none {s : State} {r : Reg} (h : s.F[r] = none) :
    s.readF r = .error .invalidRepresentation := by
  rw [State.readF, h, valueOf_none]

/-- Reading a register has one of two outcomes. -/
theorem State.readF_cases (s : State) (r : Reg) :
    (∃ v, s.F[r] = some v ∧ s.readF r = .ok v) ∨
      (s.F[r] = none ∧ s.readF r = .error .invalidRepresentation) := by
  cases h : s.F[r] with
  | some v => exact .inl ⟨v, rfl, State.readF_some h⟩
  | none => exact .inr ⟨rfl, State.readF_none h⟩

theorem State.readPair_some {s : State} {ra rb : Reg} {a b : Word} (ha : s.F[ra] = some a)
    (hb : s.F[rb] = some b) : s.readPair ra rb = .ok (a.toNat, b.toNat) := by
  simp only [State.readPair, State.readF_some ha, State.readF_some hb, bind_ok]
  rfl

theorem State.readPair_none {s : State} {ra rb : Reg} (h : s.F[ra] = none ∨ s.F[rb] = none) :
    s.readPair ra rb = .error .invalidRepresentation := by
  rcases State.readF_cases s ra with ⟨a, ha, hra⟩ | ⟨-, hra⟩
  · have hb : s.F[rb] = none := by simpa [ha] using h
    simp only [State.readPair, hra, State.readF_none hb, bind_ok, bind_error]
  · simp only [State.readPair, hra, bind_error]

theorem State.readPair_cases (s : State) (ra rb : Reg) :
    (∃ a b, s.F[ra] = some a ∧ s.F[rb] = some b ∧ s.readPair ra rb = .ok (a.toNat, b.toNat)) ∨
      ((s.F[ra] = none ∨ s.F[rb] = none) ∧ s.readPair ra rb = .error .invalidRepresentation) := by
  cases ha : s.F[ra] with
  | none => exact .inr ⟨.inl rfl, State.readPair_none (.inl ha)⟩
  | some a =>
    cases hb : s.F[rb] with
    | none => exact .inr ⟨.inr rfl, State.readPair_none (.inr hb)⟩
    | some b => exact .inl ⟨a, b, rfl, rfl, State.readPair_some ha hb⟩

theorem State.readCoef_eq (s : State) (i : Fin 16) : s.readCoef i.val = valueOf s.COEF[i] := by
  simp [State.readCoef]

/-- All the values of a list of elements, one outcome or the other. -/
theorem allValues_eq_some {es : List (Option Word)} {vs : List Word} :
    allValues es = some vs ↔ es = vs.map some := by
  induction es generalizing vs with
  | nil => cases vs <;> simp [allValues]
  | cons e es ih =>
    cases e with
    | none => cases vs <;> simp [allValues]
    | some v =>
      cases vs with
      | nil => simp [allValues]
      | cons w ws => simp [allValues, ih, and_comm]

theorem allValues_eq_none {es : List (Option Word)} : allValues es = none ↔ none ∈ es := by
  induction es with
  | nil => simp [allValues]
  | cons e es ih => cases e <;> simp [allValues, ih]

/-- Reading the polynomial: the values of slots `0 .. K-1` in order, or the error when one is missing. -/
theorem State.readPolynomial_cases (s : State) :
    (∃ vs : List Word, s.COEF.toList.take s.K = vs.map some ∧ s.readPolynomial = .ok (vs.map BitVec.toNat)) ∨
      (none ∈ s.COEF.toList.take s.K ∧ s.readPolynomial = .error .invalidRepresentation) := by
  cases h : allValues (s.COEF.toList.take s.K) with
  | some vs => exact .inl ⟨vs, allValues_eq_some.mp h, by simp [State.readPolynomial, h]⟩
  | none => exact .inr ⟨allValues_eq_none.mp h, by simp [State.readPolynomial, h]⟩

/-- An element is missing among the first `K` exactly when some slot below `K` holds no value. -/
theorem State.none_mem_take (s : State) :
    none ∈ s.COEF.toList.take s.K ↔ ∃ i : Fin 16, i.val < s.K ∧ s.COEF[i] = none := by
  rw [List.mem_iff_getElem]
  constructor
  · rintro ⟨i, hi, h⟩
    simp only [List.length_take, Vector.length_toList, lt_min_iff] at hi
    exact ⟨⟨i, hi.2⟩, hi.1, by simpa using h⟩
  · rintro ⟨i, hi, h⟩
    exact ⟨i.val, by simpa using hi, by simpa using h⟩

/-- With every slot below `K` valid, the polynomial is read whole. -/
theorem State.readPolynomial_of_holds {s : State} {c : Nat → Word} (hK : s.K ≤ 16)
    (h : ∀ i : Fin 16, i.val < s.K → s.COEF[i] = some (c i.val)) :
    s.readPolynomial = .ok ((List.range s.K).map fun i => (c i).toNat) := by
  have hl : s.COEF.toList.take s.K = ((List.range s.K).map c).map some := by
    apply List.ext_getElem
    · simpa using hK
    · intro i h1 h2
      simp only [List.length_map, List.length_range] at h2
      simpa using h ⟨i, by omega⟩ h2
  have ha : allValues (s.COEF.toList.take s.K) = some ((List.range s.K).map c) := allValues_eq_some.mpr hl
  simp [State.readPolynomial, ha, Function.comp_def]

theorem State.readShare_some {s : State} {i : Nat} {sh : Share} (h : s.SH[i]? = some sh) :
    s.readShare i = .ok sh := by
  simp [State.readShare, h]

theorem State.readShare_none {s : State} {i : Nat} (h : s.NSH ≤ i) : s.readShare i = .error .illegalCommand := by
  simp [State.readShare, List.getElem?_eq_none (show s.SH.length ≤ i from h)]

theorem State.readShare_cases (s : State) (i : Nat) :
    (∃ sh, s.SH[i]? = some sh ∧ s.readShare i = .ok sh) ∨
      (s.NSH ≤ i ∧ s.readShare i = .error .illegalCommand) := by
  cases h : s.SH[i]? with
  | some sh => exact .inl ⟨sh, rfl, State.readShare_some h⟩
  | none =>
    have hi : s.NSH ≤ i := List.getElem?_eq_none_iff.mp h
    exact .inr ⟨hi, State.readShare_none hi⟩

/-! ### How a command ends -/

@[simp] theorem State.complete_effect (s t : State) :
    s.complete (effect t) = .next (t.respond 0#128) := rfl

@[simp] theorem State.complete_deliver (s : State) (d : Word) :
    s.complete (s.deliver d) = .next (s.respond d) := rfl

@[simp] theorem State.complete_error (s : State) (k : ErrorKind) :
    s.complete (.error k) = .next (s.raise k) := rfl

theorem State.complete_eq (s : State) (r : Except ErrorKind Effect) : s.complete r = .next (s.finish r) := rfl

/-- A command ends in the effect's state with the answer `OK`, or in the old state with an error. -/
theorem State.finish_cases (s : State) (r : Except ErrorKind Effect) :
    (∃ t d, r = .ok (t, d) ∧ s.finish r = t.respond d) ∨ (∃ k, r = .error k ∧ s.finish r = s.raise k) := by
  rcases r with k | ⟨t, d⟩
  · exact .inr ⟨k, rfl, rfl⟩
  · exact .inl ⟨t, d, rfl, rfl⟩

/-! ### Words -/

theorem toWord_toNat {n : Nat} (h : n < 2 ^ 128) : (toWord n).toNat = n := by
  rw [toWord, BitVec.toNat_ofNat, Nat.mod_eq_of_lt h]

theorem toWord_toNat_of_lt {n : Nat} {P : Word} (h : n < P.toNat) : (toWord n).toNat = n :=
  toWord_toNat (h.trans P.isLt)

end Sys2Proof.Machine
end

