-- ==== Sys2Proof/Laws/Exec.lean ====
section
/-! SUPPORT. What a command can do, said once: `Performs` lists the guard and the effect of each command, and
`exec` either performs its command or raises an error and changes nothing. -/

namespace Sys2Proof.Machine

/-- The guard and the effect of a command that passes its checks: `t` is the new state but for the answer and
`d` the data delivered. -/
def Performs (s t : State) (d : Word) : Instr → Prop
  | .fld rd => s.din.toNat < s.P.toNat ∧ t = s.writeF rd s.din ∧ d = 0#128
  | .fseti rd imm => imm < s.P.toNat ∧ t = s.writeF rd (toWord imm) ∧ d = 0#128
  | .fst ra => s.F[ra] = some d ∧ t = s
  | .fmov rd ra => ∃ a, s.F[ra] = some a ∧ t = s.writeF rd a ∧ d = 0#128
  | .fadd rd ra rb => ∃ a b, s.F[ra] = some a ∧ s.F[rb] = some b ∧
      t = s.writeF rd (toWord (Field.add s.P.toNat a.toNat b.toNat)) ∧ d = 0#128
  | .fsub rd ra rb => ∃ a b, s.F[ra] = some a ∧ s.F[rb] = some b ∧
      t = s.writeF rd (toWord (Field.sub s.P.toNat a.toNat b.toNat)) ∧ d = 0#128
  | .fmul rd ra rb => ∃ a b, s.F[ra] = some a ∧ s.F[rb] = some b ∧
      t = s.writeF rd (toWord (Field.mul s.P.toNat a.toNat b.toNat)) ∧ d = 0#128
  | .fneg rd ra => ∃ a, s.F[ra] = some a ∧ t = s.writeF rd (toWord (Field.neg s.P.toNat a.toNat)) ∧ d = 0#128
  | .finv rd ra => ∃ a, s.F[ra] = some a ∧ a ≠ 0#128 ∧
      t = s.writeF rd (toWord (Field.inv s.P.toNat a.toNat)) ∧ d = 0#128
  | .feq ra rb => ∃ a b, s.F[ra] = some a ∧ s.F[rb] = some b ∧ t = s ∧ d = boolWord (a == b)
  | .psetk imm => 1 < imm ∧ imm ≤ 16 ∧ t = s.setK imm ∧ d = 0#128
  | .pldc imm ra => ∃ a, imm < 16 ∧ s.K ≠ 0 ∧ imm < s.K ∧ s.F[ra] = some a ∧ t = s.writeCoef imm a ∧ d = 0#128
  | .prdc rd imm => ∃ i : Fin 16, ∃ c, i.val = imm ∧ s.K ≠ 0 ∧ imm < s.K ∧ s.COEF[i] = some c ∧
      t = s.writeF rd c ∧ d = 0#128
  | .peval rd ra => ∃ x, ∃ vs : List Word, s.K ≠ 0 ∧ s.F[ra] = some x ∧
      s.COEF.toList.take s.K = vs.map some ∧
      t = s.writeF rd (toWord (Field.horner s.P.toNat (vs.map BitVec.toNat) x.toNat)) ∧ d = 0#128
  | .pshare imm => ∃ vs : List Word, imm ≤ 16 ∧ s.K ≠ 0 ∧ imm ≠ 0 ∧ imm ≤ s.K ∧
      s.COEF.toList.take s.K = vs.map some ∧
      t = s.setShares (sharesUpTo s.P.toNat (vs.map BitVec.toNat) imm) ∧ d = 0#128
  | .spush ra rb => ∃ x y, s.NSH ≠ 16 ∧ s.F[ra] = some x ∧ s.F[rb] = some y ∧ t = s.pushShare x y ∧ d = 0#128
  | .srdx rd imm => ∃ sh, imm < 16 ∧ s.SH[imm]? = some sh ∧ t = s.writeF rd sh.x ∧ d = 0#128
  | .srdy rd imm => ∃ sh, imm < 16 ∧ s.SH[imm]? = some sh ∧ t = s.writeF rd sh.y ∧ d = 0#128
  | .lrecon rd => s.K ≠ 0 ∧ s.NSH = s.K ∧ ¬ badAbscissas s.SHX ∧
      t = s.writeF rd (toWord (Field.lagrange0 s.P.toNat (s.SH.map Share.toPair))) ∧ d = 0#128
  | .crd imm => imm ≤ 5 ∧ t = s ∧ d = s.csr imm
  | .clr imm => imm ≤ 7 ∧ t = s.clear imm ∧ d = 0#128

/-- A command ends by way of its checks and its effect (R100). -/
theorem exec_finishes (i : Instr) (s : State) : ∃ r, exec i s = .next (s.finish r) := by
  cases i <;> exact ⟨_, rfl⟩

/-- A command answers a next state, always (R10). -/
theorem exec_next (i : Instr) (s : State) : ∃ t, exec i s = .next t := by
  cases i <;> exact ⟨_, rfl⟩

theorem valueOf_eq_ok {e : Option Word} {v : Word} : valueOf e = .ok v ↔ e = some v := by
  cases e <;> simp

theorem State.coefSlot_ok {s : State} {imm : Nat} (h1 : imm < 16) (h2 : s.K ≠ 0) (h3 : imm < s.K) :
    s.coefSlot imm = .ok () := by
  simp [State.coefSlot, raiseIf, Config.kmax, Nat.not_le.mpr h1, h2, Nat.not_le.mpr h3]

/-- A polynomial read from its slots. -/
theorem State.readPolynomial_eq {s : State} {vs : List Word} (h : s.COEF.toList.take s.K = vs.map some) :
    s.readPolynomial = .ok (vs.map BitVec.toNat) := by
  simp [State.readPolynomial, allValues_eq_some.mpr h]

/-- Under its guard a command answers `OK` and performs its effect. -/
theorem exec_of_performs {i : Instr} {s t : State} {d : Word} (h : Performs s t d i) :
    exec i s = .next (t.respond d) := by
  cases i with
  | fld rd =>
    obtain ⟨h1, rfl, rfl⟩ := h
    simp [exec, execFld, State.canonical, raiseIf, Nat.not_le.mpr h1]
  | fseti rd imm =>
    obtain ⟨h1, rfl, rfl⟩ := h
    simp [exec, execFseti, State.canonical, raiseIf, Nat.not_le.mpr h1]
  | fst ra =>
    obtain ⟨h1, rfl⟩ := h
    simp [exec, execFst, State.readF_some h1]
  | fmov rd ra =>
    obtain ⟨a, h1, rfl, rfl⟩ := h
    simp [exec, execFmov, State.readF_some h1]
  | fadd rd ra rb =>
    obtain ⟨a, b, h1, h2, rfl, rfl⟩ := h
    simp [exec, execFadd, State.readPair_some h1 h2]
  | fsub rd ra rb =>
    obtain ⟨a, b, h1, h2, rfl, rfl⟩ := h
    simp [exec, execFsub, State.readPair_some h1 h2]
  | fmul rd ra rb =>
    obtain ⟨a, b, h1, h2, rfl, rfl⟩ := h
    simp [exec, execFmul, State.readPair_some h1 h2]
  | fneg rd ra =>
    obtain ⟨a, h1, rfl, rfl⟩ := h
    simp [exec, execFneg, State.readF_some h1]
  | finv rd ra =>
    obtain ⟨a, h1, h2, rfl, rfl⟩ := h
    simp [exec, execFinv, State.readF_some h1, raiseIf, h2]
  | feq ra rb =>
    obtain ⟨a, b, h1, h2, rfl, rfl⟩ := h
    simp [exec, execFeq, State.readF_some h1, State.readF_some h2]
  | psetk imm =>
    obtain ⟨h1, h2, rfl, rfl⟩ := h
    simp [exec, execPsetk, raiseIf, Config.kmax, Nat.not_lt.mpr h2, Nat.not_le.mpr h1]
  | pldc imm ra =>
    obtain ⟨a, h1, h2, h3, h4, rfl, rfl⟩ := h
    simp [exec, execPldc, State.coefSlot_ok h1 h2 h3, State.readF_some h4]
  | prdc rd imm =>
    obtain ⟨i, c, rfl, h2, h3, h4, rfl, rfl⟩ := h
    simp [exec, execPrdc, State.coefSlot_ok i.isLt h2 h3, State.readCoef_eq, h4]
  | peval rd ra =>
    obtain ⟨x, vs, h1, h2, h3, rfl, rfl⟩ := h
    simp [exec, execPeval, raiseIf, h1, State.readF_some h2, State.readPolynomial_eq h3]
  | pshare imm =>
    obtain ⟨vs, h1, h2, h3, h4, h5, rfl, rfl⟩ := h
    simp [exec, execPshare, raiseIf, Config.kmax, Nat.not_lt.mpr h1, h2, h3, Nat.not_lt.mpr h4,
      State.readPolynomial_eq h5]
  | spush ra rb =>
    obtain ⟨x, y, h1, h2, h3, rfl, rfl⟩ := h
    simp [exec, execSpush, raiseIf, Config.kmax, h1, State.readF_some h2, State.readF_some h3]
  | srdx rd imm =>
    obtain ⟨sh, h1, h2, rfl, rfl⟩ := h
    simp [exec, execSrdx, State.shareSlot, raiseIf, Config.kmax, Nat.not_le.mpr h1, State.readShare_some h2]
  | srdy rd imm =>
    obtain ⟨sh, h1, h2, rfl, rfl⟩ := h
    simp [exec, execSrdy, State.shareSlot, raiseIf, Config.kmax, Nat.not_le.mpr h1, State.readShare_some h2]
  | lrecon rd =>
    obtain ⟨h1, h2, h3, rfl, rfl⟩ := h
    simp only [exec, execLrecon, raiseIf_neg h1, raiseIf_neg (not_not.mpr h2), raiseIf_neg h3, bind_ok,
      State.complete_effect]
  | crd imm =>
    obtain ⟨h1, rfl, rfl⟩ := h
    simp [exec, execCrd, raiseIf, Config.lastCsr, Nat.not_lt.mpr h1]
  | clr imm =>
    obtain ⟨h1, rfl, rfl⟩ := h
    simp [exec, execClr, raiseIf, Config.lastClearMask, Nat.not_lt.mpr h1]

/-- The three checks on a coefficient slot pass, or name an error. -/
theorem State.coefSlot_cases (s : State) (imm : Nat) :
    (imm < 16 ∧ s.K ≠ 0 ∧ imm < s.K ∧ s.coefSlot imm = .ok ()) ∨ (∃ k, s.coefSlot imm = .error k) := by
  by_cases h1 : 16 ≤ imm
  · exact .inr ⟨_, by rw [State.coefSlot, Config.kmax, raiseIf_pos h1]; rfl⟩
  by_cases h2 : s.K = 0
  · exact .inr ⟨_, by rw [State.coefSlot, Config.kmax, raiseIf_neg h1, raiseIf_pos h2]; rfl⟩
  by_cases h3 : s.K ≤ imm
  · exact .inr ⟨_, by rw [State.coefSlot, Config.kmax, raiseIf_neg h1, raiseIf_neg h2, raiseIf_pos h3]; rfl⟩
  exact .inl ⟨by omega, h2, by omega, State.coefSlot_ok (by omega) h2 (by omega)⟩

/-- A share slot is read, or an error is named. -/
theorem State.shareSlot_cases (s : State) (imm : Nat) :
    (∃ sh, imm < 16 ∧ s.SH[imm]? = some sh ∧ s.shareSlot imm = .ok sh) ∨
      (∃ k, s.shareSlot imm = .error k) := by
  by_cases h1 : 16 ≤ imm
  · exact .inr ⟨_, by rw [State.shareSlot, Config.kmax, raiseIf_pos h1]; rfl⟩
  rcases State.readShare_cases s imm with ⟨sh, h2, h3⟩ | ⟨-, h3⟩
  · exact .inl ⟨sh, by omega, h2, by rw [State.shareSlot, Config.kmax, raiseIf_neg h1, bind_ok, h3]⟩
  · exact .inr ⟨_, by rw [State.shareSlot, Config.kmax, raiseIf_neg h1, bind_ok, h3]⟩

/-- The guard and effect of a command, or the error it raises, seen on the result of its checks. -/
theorem exec_result (i : Instr) (s : State) :
    (∃ t d, Performs s t d i) ∨ (∃ k, exec i s = .next (s.raise k)) := by
  cases i with
  | fld rd =>
    by_cases h : s.P.toNat ≤ s.din.toNat
    · exact .inr ⟨_, by simp [exec, execFld, State.canonical, raiseIf, h]; rfl⟩
    · exact .inl ⟨_, _, Nat.not_le.mp h, rfl, rfl⟩
  | fseti rd imm =>
    by_cases h : s.P.toNat ≤ imm
    · exact .inr ⟨_, by simp [exec, execFseti, State.canonical, raiseIf, h]; rfl⟩
    · exact .inl ⟨_, _, Nat.not_le.mp h, rfl, rfl⟩
  | fst ra =>
    rcases s.readF_cases ra with ⟨v, h, -⟩ | ⟨-, h⟩
    · exact .inl ⟨_, _, h, rfl⟩
    · exact .inr ⟨_, by simp [exec, execFst, h]; rfl⟩
  | fmov rd ra =>
    rcases s.readF_cases ra with ⟨v, h, -⟩ | ⟨-, h⟩
    · exact .inl ⟨_, _, v, h, rfl, rfl⟩
    · exact .inr ⟨_, by simp [exec, execFmov, h]; rfl⟩
  | fadd rd ra rb =>
    rcases s.readPair_cases ra rb with ⟨a, b, ha, hb, -⟩ | ⟨-, h⟩
    · exact .inl ⟨_, _, a, b, ha, hb, rfl, rfl⟩
    · exact .inr ⟨_, by simp [exec, execFadd, h]; rfl⟩
  | fsub rd ra rb =>
    rcases s.readPair_cases ra rb with ⟨a, b, ha, hb, -⟩ | ⟨-, h⟩
    · exact .inl ⟨_, _, a, b, ha, hb, rfl, rfl⟩
    · exact .inr ⟨_, by simp [exec, execFsub, h]; rfl⟩
  | fmul rd ra rb =>
    rcases s.readPair_cases ra rb with ⟨a, b, ha, hb, -⟩ | ⟨-, h⟩
    · exact .inl ⟨_, _, a, b, ha, hb, rfl, rfl⟩
    · exact .inr ⟨_, by simp [exec, execFmul, h]; rfl⟩
  | fneg rd ra =>
    rcases s.readF_cases ra with ⟨v, h, -⟩ | ⟨-, h⟩
    · exact .inl ⟨_, _, v, h, rfl, rfl⟩
    · exact .inr ⟨_, by simp [exec, execFneg, h]; rfl⟩
  | finv rd ra =>
    rcases s.readF_cases ra with ⟨v, h, hr⟩ | ⟨-, h⟩
    · by_cases hv : v = 0#128
      · exact .inr ⟨_, by simp [exec, execFinv, hr, raiseIf, hv]; rfl⟩
      · exact .inl ⟨_, _, v, h, hv, rfl, rfl⟩
    · exact .inr ⟨_, by simp [exec, execFinv, h]; rfl⟩
  | feq ra rb =>
    rcases s.readF_cases ra with ⟨a, ha, hra⟩ | ⟨-, h⟩
    · rcases s.readF_cases rb with ⟨b, hb, -⟩ | ⟨-, h⟩
      · exact .inl ⟨_, _, a, b, ha, hb, rfl, rfl⟩
      · exact .inr ⟨_, by simp [exec, execFeq, hra, h]; rfl⟩
    · exact .inr ⟨_, by simp [exec, execFeq, h]; rfl⟩
  | psetk imm =>
    by_cases h1 : 16 < imm
    · exact .inr ⟨_, by simp [exec, execPsetk, raiseIf, Config.kmax, h1]; rfl⟩
    by_cases h2 : imm ≤ 1
    · exact .inr ⟨_, by simp [exec, execPsetk, raiseIf, Config.kmax, h1, h2]; rfl⟩
    exact .inl ⟨_, _, by omega, by omega, rfl, rfl⟩
  | pldc imm ra =>
    rcases s.coefSlot_cases imm with ⟨h1, h2, h3, h4⟩ | ⟨k, h⟩
    · rcases s.readF_cases ra with ⟨a, ha, -⟩ | ⟨-, h⟩
      · exact .inl ⟨_, _, a, h1, h2, h3, ha, rfl, rfl⟩
      · exact .inr ⟨_, by simp [exec, execPldc, h4, h]; rfl⟩
    · exact .inr ⟨k, by simp [exec, execPldc, h]⟩
  | prdc rd imm =>
    rcases s.coefSlot_cases imm with ⟨h1, h2, h3, h4⟩ | ⟨k, h⟩
    · cases hc : s.COEF[(⟨imm, h1⟩ : Fin 16)] with
      | some c => exact .inl ⟨_, _, ⟨imm, h1⟩, c, rfl, h2, h3, hc, rfl, rfl⟩
      | none =>
        have hr := s.readCoef_eq ⟨imm, h1⟩
        rw [hc, valueOf_none] at hr
        exact .inr ⟨.invalidRepresentation, by simp [exec, execPrdc, h4, hr]⟩
    · exact .inr ⟨k, by simp [exec, execPrdc, h]⟩
  | peval rd ra =>
    by_cases h1 : s.K = 0
    · exact .inr ⟨_, by simp [exec, execPeval, raiseIf, h1]; rfl⟩
    rcases s.readF_cases ra with ⟨a, ha, hra⟩ | ⟨-, h⟩
    · rcases s.readPolynomial_cases with ⟨vs, hvs, -⟩ | ⟨-, h⟩
      · exact .inl ⟨_, _, a, vs, h1, ha, hvs, rfl, rfl⟩
      · exact .inr ⟨_, by simp [exec, execPeval, raiseIf, h1, hra, h]; rfl⟩
    · exact .inr ⟨_, by simp [exec, execPeval, raiseIf, h1, h]; rfl⟩
  | pshare imm =>
    by_cases h1 : 16 < imm
    · exact .inr ⟨_, by simp [exec, execPshare, raiseIf, Config.kmax, h1]; rfl⟩
    by_cases h2 : s.K = 0
    · exact .inr ⟨_, by simp [exec, execPshare, raiseIf, Config.kmax, h1, h2]; rfl⟩
    by_cases h3 : imm = 0 ∨ s.K < imm
    · exact .inr ⟨_, by simp [exec, execPshare, raiseIf, Config.kmax, h1, h2, h3]; rfl⟩
    rcases s.readPolynomial_cases with ⟨vs, hvs, -⟩ | ⟨-, h⟩
    · exact .inl ⟨_, _, vs, by omega, h2, by omega, by omega, hvs, rfl, rfl⟩
    · exact .inr ⟨_, by simp [exec, execPshare, raiseIf, Config.kmax, h1, h2, h3, h]; rfl⟩
  | spush ra rb =>
    by_cases h1 : s.NSH = 16
    · exact .inr ⟨_, by simp [exec, execSpush, raiseIf, Config.kmax, h1]; rfl⟩
    rcases s.readF_cases ra with ⟨a, ha, hra⟩ | ⟨-, h⟩
    · rcases s.readF_cases rb with ⟨b, hb, -⟩ | ⟨-, h⟩
      · exact .inl ⟨_, _, a, b, h1, ha, hb, rfl, rfl⟩
      · exact .inr ⟨_, by simp [exec, execSpush, raiseIf, Config.kmax, h1, hra, h]; rfl⟩
    · exact .inr ⟨_, by simp [exec, execSpush, raiseIf, Config.kmax, h1, h]; rfl⟩
  | srdx rd imm =>
    rcases s.shareSlot_cases imm with ⟨sh, h1, h2, -⟩ | ⟨k, h⟩
    · exact .inl ⟨_, _, sh, h1, h2, rfl, rfl⟩
    · exact .inr ⟨k, by simp [exec, execSrdx, h]⟩
  | srdy rd imm =>
    rcases s.shareSlot_cases imm with ⟨sh, h1, h2, -⟩ | ⟨k, h⟩
    · exact .inl ⟨_, _, sh, h1, h2, rfl, rfl⟩
    · exact .inr ⟨k, by simp [exec, execSrdy, h]⟩
  | lrecon rd =>
    by_cases h1 : s.K = 0
    · exact .inr ⟨_, by simp only [exec, execLrecon, raiseIf_pos h1, bind_error, State.complete_error]; rfl⟩
    by_cases h2 : s.NSH ≠ s.K
    · exact .inr ⟨_, by
        simp only [exec, execLrecon, raiseIf_neg h1, raiseIf_pos h2, bind_ok, bind_error,
          State.complete_error]; rfl⟩
    by_cases h3 : badAbscissas s.SHX
    · exact .inr ⟨_, by
        simp only [exec, execLrecon, raiseIf_neg h1, raiseIf_neg h2, raiseIf_pos h3, bind_ok, bind_error,
          State.complete_error]; rfl⟩
    exact .inl ⟨_, _, h1, not_not.mp h2, h3, rfl, rfl⟩
  | crd imm =>
    by_cases h1 : 5 < imm
    · exact .inr ⟨_, by simp [exec, execCrd, raiseIf, Config.lastCsr, h1]; rfl⟩
    · exact .inl ⟨_, _, by omega, rfl, rfl⟩
  | clr imm =>
    by_cases h1 : 7 < imm
    · exact .inr ⟨_, by simp [exec, execClr, raiseIf, Config.lastClearMask, h1]; rfl⟩
    · exact .inl ⟨_, _, by omega, rfl, rfl⟩

/-- A command performs its effect and answers `OK`, or raises an error and changes nothing (R209). -/
theorem exec_cases (i : Instr) (s : State) :
    (∃ t d, Performs s t d i ∧ exec i s = .next (t.respond d)) ∨ (∃ k, exec i s = .next (s.raise k)) := by
  rcases exec_result i s with ⟨t, d, h⟩ | h
  · exact .inl ⟨t, d, h, exec_of_performs h⟩
  · exact .inr h

/-- One step: idle, reset (between commands or during one), an illegal word, or a command executed. -/
theorem step_cases (s : State) :
    (s.inputs = [] ∧ step s = .next s) ∨
    (∃ rest, (s.inputs = .reset :: rest ∨ ∃ cw din, s.inputs = .abandoned cw din :: rest) ∧
      step s = .next (s.hardReset rest)) ∨
    (∃ cw din rest e, s.inputs = .command cw din :: rest ∧ decode cw = .error e ∧
      step s = .next ((s.accept din rest).raise .illegalCommand)) ∨
    (∃ cw din rest i, s.inputs = .command cw din :: rest ∧ decode cw = .ok i ∧
      step s = exec i (s.accept din rest)) := by
  cases h : s.inputs with
  | nil => exact .inl ⟨rfl, by simp [step, h]⟩
  | cons a rest =>
    cases a with
    | reset => exact .inr (.inl ⟨rest, .inl rfl, by simp [step, h]⟩)
    | abandoned cw din => exact .inr (.inl ⟨rest, .inr ⟨cw, din, rfl⟩, by simp [step, h]⟩)
    | command cw din =>
      cases hd : decode cw with
      | error e => exact .inr (.inr (.inl ⟨cw, din, rest, e, rfl, hd, by simp [step, h, transact, hd]⟩))
      | ok i => exact .inr (.inr (.inr ⟨cw, din, rest, i, rfl, hd, by simp [step, h, transact, hd]⟩))

end Sys2Proof.Machine
end

