-- ==== Sys2Proof/Laws/Field.lean ====
section
/-! SUPPORT. The arithmetic of Machine/Field.lean: every result is canonical, and each operation is the
operation of the ring of integers modulo `p` (spec 41_field_arithmetic.md R110 to R115, R122). -/

namespace Sys2Proof.Machine.Field

variable {p : Nat}

/-! ### Every result is canonical (R37) -/

theorem add_lt (hp : 0 < p) (a b : Nat) : add p a b < p := Nat.mod_lt _ hp

theorem mul_lt (hp : 0 < p) (a b : Nat) : mul p a b < p := Nat.mod_lt _ hp

theorem sub_lt (hp : 0 < p) (a b : Nat) : sub p a b < p := by
  have h := Int.emod_lt_of_pos ((a : Int) - b) (by exact_mod_cast hp : (0 : Int) < p)
  have h0 := Int.emod_nonneg ((a : Int) - b) (by omega : (p : Int) ≠ 0)
  unfold sub
  omega

theorem neg_lt (hp : 0 < p) (a : Nat) : neg p a < p := sub_lt hp 0 a

theorem powMod_lt (hp : 0 < p) (n b e : Nat) : powMod p n b e < p := by
  induction n generalizing b e with
  | zero => exact Nat.mod_lt _ hp
  | succ n ih =>
    unfold powMod
    split
    · exact mul_lt hp _ _
    · exact ih _ _

theorem inv_lt (hp : 0 < p) (a : Nat) : inv p a < p := powMod_lt hp _ _ _

theorem sum_lt (hp : 0 < p) (xs : List Nat) : sum p xs < p := by
  rcases xs.eq_nil_or_concat with rfl | ⟨ys, y, rfl⟩
  · exact hp
  · rw [sum, List.concat_eq_append, List.foldl_concat]
    exact add_lt hp _ _

theorem horner_lt (hp : 0 < p) (cs : List Nat) (x : Nat) : horner p cs x < p := by
  rcases cs.eq_nil_or_concat with rfl | ⟨ys, y, rfl⟩
  · exact hp
  · rw [horner, List.concat_eq_append, List.foldl_concat]
    exact add_lt hp _ _

theorem lagrange0_lt (hp : 0 < p) (l : List (Nat × Nat)) : lagrange0 p l < p := sum_lt hp _

/-! ### The cases of R110, R111, R113 -/

theorem add_eq_of_lt {a b : Nat} (h : a + b < p) : add p a b = a + b := Nat.mod_eq_of_lt h

theorem add_eq_of_ge {a b : Nat} (ha : a < p) (hb : b < p) (h : p ≤ a + b) : add p a b = a + b - p := by
  rw [add, Nat.mod_eq_sub_mod h, Nat.mod_eq_of_lt (by omega)]

theorem sub_eq_of_ge {a b : Nat} (ha : a < p) (h : b ≤ a) : sub p a b = a - b := by
  have : ((a : Int) - b) % p = ((a - b : Nat) : Int) := by
    rw [Int.emod_eq_of_lt] <;> omega
  rw [sub, this, Int.toNat_natCast]

theorem sub_eq_of_lt {a b : Nat} (hb : b < p) (h : a < b) : sub p a b = a + p - b := by
  have : ((a : Int) - b) % p = ((a + p - b : Nat) : Int) := by
    rw [← Int.add_emod_right, Int.emod_eq_of_lt] <;> omega
  rw [sub, this, Int.toNat_natCast]

/-! ### Each operation in the ring of integers modulo `p` -/

@[simp] theorem cast_add (a b : Nat) : ((add p a b : Nat) : ZMod p) = a + b := by
  simp [add]

@[simp] theorem cast_mul (a b : Nat) : ((mul p a b : Nat) : ZMod p) = a * b := by
  simp [mul]

theorem cast_sub (hp : 0 < p) (a b : Nat) : ((sub p a b : Nat) : ZMod p) = a - b := by
  have h0 := Int.emod_nonneg ((a : Int) - b) (by omega : (p : Int) ≠ 0)
  have h : ((sub p a b : Nat) : Int) = ((a : Int) - b) % p := Int.toNat_of_nonneg h0
  have h2 : (((sub p a b : Nat) : Int) : ZMod p) = (((a : Int) - b : Int) : ZMod p) := by
    rw [h, ZMod.intCast_mod]
  simpa using h2

theorem cast_neg (hp : 0 < p) (a : Nat) : ((neg p a : Nat) : ZMod p) = -a := by
  simp [neg, cast_sub hp]

/-- Squaring and multiplying computes the power, for exponents of at most `n` bits. -/
theorem cast_powMod (n b e : Nat) (h : e < 2 ^ n) : ((powMod p n b e : Nat) : ZMod p) = (b : ZMod p) ^ e := by
  induction n generalizing b e with
  | zero =>
    obtain rfl : e = 0 := by simpa using h
    simp [powMod]
  | succ n ih =>
    have hhalf : e / 2 < 2 ^ n := by omega
    have hsq : ((mul p b b : Nat) : ZMod p) ^ (e / 2) = (b : ZMod p) ^ (2 * (e / 2)) := by
      rw [cast_mul, ← pow_two, ← pow_mul]
    unfold powMod
    split
    · rw [cast_mul, ih _ _ hhalf, hsq, ← pow_succ']
      congr 1
      omega
    · rw [ih _ _ hhalf, hsq]
      congr 1
      omega

/-- `inv` is the inverse of the field, for an odd prime modulus of at most 128 bits (R114, R122). -/
theorem cast_inv (hp : p.Prime) (h2 : 2 < p) (hw : p < 2 ^ 128) (a : Nat) :
    ((inv p a : Nat) : ZMod p) = (a : ZMod p)⁻¹ := by
  have := Fact.mk hp
  rw [inv, cast_powMod _ _ _ (by omega)]
  by_cases ha : (a : ZMod p) = 0
  · rw [ha, zero_pow (by omega), inv_zero]
  · have hinv : (a : ZMod p) ^ (p - 2) * a = 1 := by
      rw [← pow_succ, ← ZMod.pow_card_sub_one_eq_one ha]
      congr 1
      omega
    exact eq_inv_of_mul_eq_one_left hinv

/-- `inv(a) (*) a = 1` for a nonzero element (R114, R122). -/
theorem mul_inv_self (hp : p.Prime) (h2 : 2 < p) (hw : p < 2 ^ 128) {a : Nat} (ha : a ≠ 0) (hap : a < p) :
    mul p (inv p a) a = 1 := by
  have := Fact.mk hp
  have hne : (a : ZMod p) ≠ 0 := by
    rw [Ne, ZMod.natCast_eq_zero_iff]
    exact fun h => ha (Nat.eq_zero_of_dvd_of_lt h hap)
  have h : ((mul p (inv p a) a : Nat) : ZMod p) = ((1 : Nat) : ZMod p) := by
    rw [cast_mul, cast_inv hp h2 hw, inv_mul_cancel₀ hne, Nat.cast_one]
  rw [ZMod.natCast_eq_natCast_iff'] at h
  rwa [Nat.mod_eq_of_lt (mul_lt (by omega) _ _), Nat.mod_eq_of_lt (by omega)] at h

/-! ### Horner's method, products and sums, one element at a time -/

@[simp] theorem horner_nil (x : Nat) : horner p [] x = 0 := rfl

theorem horner_concat (cs : List Nat) (c x : Nat) :
    horner p (cs ++ [c]) x = add p (mul p (horner p cs x) x) c := by
  rw [horner, List.foldl_concat, horner]

/-- The accumulator of Horner's method after one more coefficient, in the ring (R131). -/
theorem cast_horner_concat (cs : List Nat) (c x : Nat) :
    ((horner p (cs ++ [c]) x : Nat) : ZMod p) = (horner p cs x : Nat) * x + c := by
  rw [horner_concat, cast_add, cast_mul]

theorem cast_foldl_mul (xs : List Nat) (a : Nat) :
    ((xs.foldl (mul p) a : Nat) : ZMod p) = a * (xs.map (Nat.cast : Nat → ZMod p)).prod := by
  induction xs generalizing a with
  | nil => simp
  | cons x xs ih => simp [ih, mul_assoc]

theorem cast_prod (xs : List Nat) :
    ((prod p xs : Nat) : ZMod p) = (xs.map (Nat.cast : Nat → ZMod p)).prod := by
  rw [prod, cast_foldl_mul, Nat.cast_one, one_mul]

theorem cast_foldl_add (xs : List Nat) (a : Nat) :
    ((xs.foldl (add p) a : Nat) : ZMod p) = a + (xs.map (Nat.cast : Nat → ZMod p)).sum := by
  induction xs generalizing a with
  | nil => simp
  | cons x xs ih => simp [ih, add_assoc]

theorem cast_sum (xs : List Nat) :
    ((sum p xs : Nat) : ZMod p) = (xs.map (Nat.cast : Nat → ZMod p)).sum := by
  rw [sum, cast_foldl_add, Nat.cast_zero, zero_add]

/-- The term of one share, in the ring: `y * D * N⁻¹` (R154). -/
theorem cast_lagrangeTerm (hp : p.Prime) (h2 : 2 < p) (hw : p < 2 ^ 128) (x y : Nat) (others : List Nat) :
    ((lagrangeTerm p (x, y) others : Nat) : ZMod p) =
      y * (others.map fun xj : Nat => -(xj : ZMod p)).prod *
        ((others.map fun xj : Nat => (x : ZMod p) - xj).prod)⁻¹ := by
  have h0 : 0 < p := by omega
  simp only [lagrangeTerm, cast_mul, cast_inv hp h2 hw, cast_prod, List.map_map, Function.comp_def,
    cast_sub h0, cast_neg h0]

end Sys2Proof.Machine.Field
end

