-- ==== Sys2Proof/Laws/Inv.lean ====
section
/-! SUPPORT. Every operation over the state keeps the invariant (spec 10_state.md R27, R30, R37). -/

namespace Sys2Proof.Safety

open Sys2Proof.Machine

/-- The modulus of the reset state is admissible, whatever it is (R7). -/
theorem modulus_ok : Config.ModulusOk Config.modulus := by
  unfold Config.modulus
  split
  · assumption
  · exact ⟨by norm_num [Config.sampleToy], by decide⟩

theorem Inv.pos {s : State} (h : Inv s) : 0 < s.P.toNat := h.modulus.1.pos

theorem Inv.two_lt {s : State} (h : Inv s) : 2 < s.P.toNat := lt_trans (by decide) h.modulus.2

theorem Inv.sixteen_lt {s : State} (h : Inv s) : 16 < s.P.toNat := h.modulus.2

@[simp] theorem canonicalElem_none (P : Word) : CanonicalElem P none := fun _ h => nomatch h

theorem canonicalElem_some {P v : Word} : CanonicalElem P (some v) ↔ v.toNat < P.toNat :=
  ⟨fun h => h v rfl, fun h w e => by cases e; exact h⟩

/-- The check on an element as a boolean, for states written out. -/
theorem canonicalElem_iff (P : Word) (e : Option Word) :
    CanonicalElem P e ↔ (e.all fun v => decide (v.toNat < P.toNat)) = true := by
  cases e <;> simp [canonicalElem_some]

theorem canonicalShare_iff (P : Word) (sh : Share) :
    CanonicalShare P sh ↔ (decide (sh.x.toNat < P.toNat) && decide (sh.y.toNat < P.toNat)) = true := by
  simp [CanonicalShare]

/-- The result of field arithmetic is canonical as a word. -/
theorem toWord_canonical {P : Word} {n : Nat} (h : n < P.toNat) : (toWord n).toNat < P.toNat := by
  rwa [toWord_toNat_of_lt h]

/-! ### The answer and the port do not matter -/

theorem Inv.of_same {s t : State} (h : Inv s) (hs : SameMfa s t) : Inv t := by
  obtain ⟨hP, hF, hC, hK, hS⟩ := hs
  have hN : t.NSH = s.NSH := by rw [State.NSH, State.NSH, hS]
  exact ⟨hP ▸ h.modulus, by rw [hP, hF]; exact h.registers, by rw [hP, hC]; exact h.coefficients,
    by rw [hK, hC]; exact h.polynomial, by rw [hK]; exact h.count, by rw [hP, hS]; exact h.shares,
    by rw [hN]; exact h.capacity⟩

theorem Inv.respond {s : State} (h : Inv s) (d : Word) : Inv (s.respond d) :=
  h.of_same ⟨rfl, rfl, rfl, rfl, rfl⟩

theorem Inv.raise {s : State} (h : Inv s) (k : ErrorKind) : Inv (s.raise k) :=
  h.of_same ⟨rfl, rfl, rfl, rfl, rfl⟩

theorem Inv.accept {s : State} (h : Inv s) (din : Word) (rest : List Input) : Inv (s.accept din rest) :=
  h.of_same ⟨rfl, rfl, rfl, rfl, rfl⟩

/-! ### Writes and discards -/

theorem Inv.writeF {s : State} (h : Inv s) (rd : Reg) {v : Word} (hv : v.toNat < s.P.toNat) :
    Inv (s.writeF rd v) where
  modulus := h.modulus
  registers r := by
    by_cases hr : r = rd
    · subst hr
      rw [State.writeF_get_self]
      exact canonicalElem_some.mpr hv
    · rw [State.writeF_get_other _ _ hr]
      exact h.registers r
  coefficients := h.coefficients
  polynomial := h.polynomial
  count := h.count
  shares := h.shares
  capacity := h.capacity

theorem Inv.writeCoef {s : State} (h : Inv s) {i : Nat} (hi : i < s.K) {v : Word}
    (hv : v.toNat < s.P.toNat) : Inv (s.writeCoef i v) where
  modulus := h.modulus
  registers := h.registers
  coefficients j := by
    by_cases hj : j.val = i
    · subst hj
      rw [State.writeCoef_get_self]
      exact canonicalElem_some.mpr hv
    · rw [State.writeCoef_get_other _ _ hj]
      exact h.coefficients j
  polynomial j hj := by
    have hji : j.val ≠ i := by
      simp only [State.writeCoef_K] at hj
      omega
    rw [State.writeCoef_get_other _ _ hji]
    exact h.polynomial j hj
  count := h.count
  shares := h.shares
  capacity := h.capacity

theorem Inv.setK {s : State} (h : Inv s) {k : Nat} (hk : k = 0 ∨ 2 ≤ k ∧ k ≤ 16) : Inv (s.setK k) where
  modulus := h.modulus
  registers := h.registers
  coefficients i := by simp
  polynomial i _ := by simp
  count := hk
  shares := h.shares
  capacity := h.capacity

theorem Inv.setShares {s : State} (h : Inv s) {l : List Share} (hl : ∀ sh ∈ l, CanonicalShare s.P sh)
    (hn : l.length ≤ 16) : Inv (s.setShares l) where
  modulus := h.modulus
  registers := h.registers
  coefficients := h.coefficients
  polynomial := h.polynomial
  count := h.count
  shares := hl
  capacity := hn

theorem Inv.pushShare {s : State} (h : Inv s) {x y : Word} (hx : x.toNat < s.P.toNat)
    (hy : y.toNat < s.P.toNat) (hn : s.NSH < 16) : Inv (s.pushShare x y) := by
  refine h.setShares ?_ ?_
  · intro sh hsh
    rcases List.mem_append.mp hsh with hsh | hsh
    · exact h.shares sh hsh
    · obtain rfl := List.mem_singleton.mp hsh
      exact ⟨hx, hy⟩
  · simpa [State.NSH] using hn

theorem Inv.clearF {s : State} (h : Inv s) : Inv s.clearF where
  modulus := h.modulus
  registers r := by simp
  coefficients := h.coefficients
  polynomial := h.polynomial
  count := h.count
  shares := h.shares
  capacity := h.capacity

theorem Inv.discard {s t : State} (c : Bool) (h : Inv s) (ht : Inv s → Inv t) :
    Inv (if c = true then t else s) := by
  split
  · exact ht h
  · exact h

theorem Inv.clear {s : State} (h : Inv s) (m : Nat) : Inv (s.clear m) :=
  Inv.discard _ (Inv.discard _ (Inv.discard _ h Inv.clearF) fun h => h.setK (.inl rfl)) fun h =>
    h.setShares (fun _ hsh => nomatch hsh) (Nat.zero_le _)

/-! ### Reset -/

theorem inv_resetOf {P : Word} (hP : Config.ModulusOk P) : Inv (State.resetOf P) where
  modulus := hP
  registers r := by simp
  coefficients i := by simp
  polynomial i _ := by simp
  count := .inl rfl
  shares := by simp
  capacity := by simp [State.NSH]

theorem Inv.hardReset {s : State} (h : Inv s) (rest : List Input) : Inv (s.hardReset rest) :=
  (inv_resetOf h.modulus).of_same ⟨rfl, rfl, rfl, rfl, rfl⟩

end Sys2Proof.Safety
end

