-- ==== Sys2Proof/Laws/Interpolation.lean ====
section
/-! SUPPORT. The result of the interpolation engine in the field of integers modulo `P`
(spec 43_lagrange_interpolation.md R154, R156), and the bits of the two valid masks (10_state.md R36). -/

namespace Sys2Proof.Safety

open Sys2Proof.Machine

/-- A product over all slots but `i`, as a product over the list without its element `i`. -/
theorem prod_map_eraseIdx {M : Type} [CommMonoid M] (l : List Share) (i : Fin l.length) (f : Nat → M) :
    ((((l.map Share.toPair).eraseIdx i).map Prod.fst).map f).prod =
      ∏ j ∈ Finset.univ.erase i, f (l[j]).x.toNat := by
  have h1 : (((l.map Share.toPair).eraseIdx i).map Prod.fst).map f =
      (l.map fun sh => f sh.x.toNat).eraseIdx i := by
    simp [List.eraseIdx_map, Share.toPair, Function.comp_def]
  have h2 : (Finset.univ.erase i).val = ((List.finRange l.length).eraseIdx i : Multiset (Fin l.length)) := by
    have h := (List.nodup_finRange l.length).erase_getElem i.val (by simp)
    simp only [List.getElem_finRange, Fin.cast_mk, Fin.eta] at h
    rw [← h]
    simp [Finset.erase_val]
    rfl
  rw [Finset.prod, h2, h1, Multiset.map_coe, Multiset.prod_coe]
  congr 1
  apply List.ext_getElem
  · simp [List.length_eraseIdx]
  · intro n _ _
    simp only [List.getElem_eraseIdx, List.getElem_map, List.getElem_finRange]
    split <;> rfl

/-- What the engine computes is the second form of R154, in the field. -/
theorem Inv.cast_lagrange0 {s : State} (h : Inv s) :
    ((Field.lagrange0 s.P.toNat (s.SH.map Share.toPair) : Nat) : ZMod s.P.toNat) =
      interpolationAtZero s.P s.SH := by
  have hl : ∀ l : List Share, ((l.map Share.toPair).zipIdx.map (Nat.cast ∘ fun e : (Nat × Nat) × Nat =>
      Field.lagrangeTerm s.P.toNat e.1 (((l.map Share.toPair).eraseIdx e.2).map Prod.fst))) =
      List.ofFn (fun i : Fin l.length => ((Field.lagrangeTerm s.P.toNat (l[i]).toPair
        (((l.map Share.toPair).eraseIdx i).map Prod.fst) : Nat) : ZMod s.P.toNat)) := by
    intro l
    apply List.ext_getElem <;> simp
  rw [Field.lagrange0, Field.cast_sum, interpolationAtZero, List.map_map, hl, List.sum_ofFn]
  refine Finset.sum_congr rfl fun i _ => ?_
  simp only [Share.toPair]
  rw [Field.cast_lagrangeTerm h.modulus.1 h.two_lt s.P.isLt, prod_map_eraseIdx, prod_map_eraseIdx]
  rfl

/-! ### The valid masks -/

theorem validNat_lt (l : List (Option Word)) : validNat l < 2 ^ l.length := by
  induction l with
  | nil => simp [validNat]
  | cons e l ih =>
    simp only [validNat, List.length_cons, pow_succ]
    split <;> omega

theorem validNat_testBit (l : List (Option Word)) (i : Nat) :
    (validNat l).testBit i = (l[i]?.map Option.isSome).getD false := by
  induction l generalizing i with
  | nil => simp [validNat]
  | cons e l ih =>
    cases i with
    | zero => cases e <;> simp [validNat, Nat.testBit_zero]
    | succ i =>
      have h : validNat (e :: l) / 2 = validNat l := by
        simp only [validNat]
        split <;> omega
      rw [Nat.testBit_succ, h, ih, List.getElem?_cons_succ]

end Sys2Proof.Safety
end

