-- ==== Sys2Proof/Laws/PerInstr.lean ====
section
/-! SUPPORT. Facts about every command as syntax, one lemma per constructor of `Instr`.
`FieldsRoundTrip`: the fields of a well-formed command leave every must-be-zero field zero, and the command is
built back from them with every operand (spec 30_encoding.md R72, R73). -/

namespace Sys2Proof.Laws.FieldsRoundTrip

def Statement (i : Instr) : Prop :=
  i.WellFormed → i.fields.fits i.opcode.format = true ∧ i.opcode.build i.fields = i

/-- A command without an immediate: both facts compute. -/
theorem of_rfl {i : Instr} (h1 : i.fields.fits i.opcode.format = true) (h2 : i.opcode.build i.fields = i) :
    Statement i := fun _ => ⟨h1, h2⟩

theorem fld (rd : Reg) : Statement (.fld rd) := of_rfl rfl rfl

theorem fseti (rd : Reg) (imm : Nat) : Statement (.fseti rd imm) := fun h =>
  ⟨rfl, congrArg (fun n => Instr.fseti rd n) (immField_toNat h)⟩

theorem fst (ra : Reg) : Statement (.fst ra) := of_rfl rfl rfl

theorem fmov (rd : Reg) (ra : Reg) : Statement (.fmov rd ra) := of_rfl rfl rfl

theorem fadd (rd : Reg) (ra : Reg) (rb : Reg) : Statement (.fadd rd ra rb) := of_rfl rfl rfl

theorem fsub (rd : Reg) (ra : Reg) (rb : Reg) : Statement (.fsub rd ra rb) := of_rfl rfl rfl

theorem fmul (rd : Reg) (ra : Reg) (rb : Reg) : Statement (.fmul rd ra rb) := of_rfl rfl rfl

theorem fneg (rd : Reg) (ra : Reg) : Statement (.fneg rd ra) := of_rfl rfl rfl

theorem finv (rd : Reg) (ra : Reg) : Statement (.finv rd ra) := of_rfl rfl rfl

theorem feq (ra : Reg) (rb : Reg) : Statement (.feq ra rb) := of_rfl rfl rfl

theorem psetk (imm : Nat) : Statement (.psetk imm) := fun h =>
  ⟨rfl, congrArg (fun n => Instr.psetk n) (immField_toNat h)⟩

theorem pldc (imm : Nat) (ra : Reg) : Statement (.pldc imm ra) := fun h =>
  ⟨rfl, congrArg (fun n => Instr.pldc n ra) (immField_toNat h)⟩

theorem prdc (rd : Reg) (imm : Nat) : Statement (.prdc rd imm) := fun h =>
  ⟨rfl, congrArg (fun n => Instr.prdc rd n) (immField_toNat h)⟩

theorem peval (rd : Reg) (ra : Reg) : Statement (.peval rd ra) := of_rfl rfl rfl

theorem pshare (imm : Nat) : Statement (.pshare imm) := fun h =>
  ⟨rfl, congrArg (fun n => Instr.pshare n) (immField_toNat h)⟩

theorem spush (ra : Reg) (rb : Reg) : Statement (.spush ra rb) := of_rfl rfl rfl

theorem srdx (rd : Reg) (imm : Nat) : Statement (.srdx rd imm) := fun h =>
  ⟨rfl, congrArg (fun n => Instr.srdx rd n) (immField_toNat h)⟩

theorem srdy (rd : Reg) (imm : Nat) : Statement (.srdy rd imm) := fun h =>
  ⟨rfl, congrArg (fun n => Instr.srdy rd n) (immField_toNat h)⟩

theorem lrecon (rd : Reg) : Statement (.lrecon rd) := of_rfl rfl rfl

theorem crd (imm : Nat) : Statement (.crd imm) := fun h =>
  ⟨rfl, congrArg (fun n => Instr.crd n) (immField_toNat h)⟩

theorem clr (imm : Nat) : Statement (.clr imm) := fun h =>
  ⟨rfl, congrArg (fun n => Instr.clr n) (immField_toNat h)⟩

end Sys2Proof.Laws.FieldsRoundTrip
end

