-- ==== Sys2Proof/Tests/Slice0.lean ====
section
/-! SUPPORT. Tests of the model, expected values from spec/95_test_vectors.md or by hand from the rules, and a
witness for the hypotheses of each statement of Certificates/Slice0/Obligations.lean. -/

namespace Sys2Proof.Tests

open Sys2Proof Sys2Proof.Machine Sys2Proof.Safety

/-! ### WellFormed: an ill-formed term for each check (R74: an immediate is below 4096) -/

theorem test_wellFormed_refuses_fseti :
    (Instr.wellFormed (.fseti 1 4096), Instr.wellFormed (.fseti 1 4095)) = (false, true) := by
  decide

theorem test_wellFormed_refuses_psetk :
    (Instr.wellFormed (.psetk 4096), Instr.wellFormed (.psetk 4095)) = (false, true) := by
  decide

theorem test_wellFormed_refuses_pldc :
    (Instr.wellFormed (.pldc 4096 1), Instr.wellFormed (.pldc 4095 1)) = (false, true) := by
  decide

theorem test_wellFormed_refuses_prdc :
    (Instr.wellFormed (.prdc 1 4096), Instr.wellFormed (.prdc 1 4095)) = (false, true) := by
  decide

theorem test_wellFormed_refuses_pshare :
    (Instr.wellFormed (.pshare 4096), Instr.wellFormed (.pshare 4095)) = (false, true) := by
  decide

theorem test_wellFormed_refuses_srdx :
    (Instr.wellFormed (.srdx 1 4096), Instr.wellFormed (.srdx 1 4095)) = (false, true) := by
  decide

theorem test_wellFormed_refuses_srdy :
    (Instr.wellFormed (.srdy 1 4096), Instr.wellFormed (.srdy 1 4095)) = (false, true) := by
  decide

theorem test_wellFormed_refuses_crd :
    (Instr.wellFormed (.crd 4096), Instr.wellFormed (.crd 4095)) = (false, true) := by
  decide

theorem test_wellFormed_refuses_clr :
    (Instr.wellFormed (.clr 4096), Instr.wellFormed (.clr 4095)) = (false, true) := by
  decide

theorem test_wellFormed_registers_only : Instr.wellFormed (.fadd 15 0 15) = true := by decide

/-! ### Decoding: the words of 95_test_vectors.md 2.0, one theorem per command -/

theorem test_decode_fld : decode 0x10F00000#32 = .ok (.fld 15) ∧
    decode 0x10000000#32 = .ok (.fld 0) := by decide

theorem test_decode_fseti : decode 0x11F00FFF#32 = .ok (.fseti 15 4095) ∧
    decode 0x11300000#32 = .ok (.fseti 3 0) := by decide

theorem test_decode_fst : decode 0x120F0000#32 = .ok (.fst 15) ∧
    decode 0x12000000#32 = .ok (.fst 0) := by decide

theorem test_decode_fmov : decode 0x13FE0000#32 = .ok (.fmov 15 14) ∧
    decode 0x13110000#32 = .ok (.fmov 1 1) := by decide

theorem test_decode_fadd : decode 0x20FED000#32 = .ok (.fadd 15 14 13) ∧
    decode 0x20312000#32 = .ok (.fadd 3 1 2) := by decide

theorem test_decode_fsub : decode 0x21000000#32 = .ok (.fsub 0 0 0) ∧
    decode 0x21432000#32 = .ok (.fsub 4 3 2) := by decide

theorem test_decode_fmul : decode 0x22111000#32 = .ok (.fmul 1 1 1) ∧
    decode 0x22651000#32 = .ok (.fmul 6 5 1) := by decide

theorem test_decode_fneg : decode 0x23220000#32 = .ok (.fneg 2 2) ∧
    decode 0x23710000#32 = .ok (.fneg 7 1) := by decide

theorem test_decode_finv : decode 0x24340000#32 = .ok (.finv 3 4) ∧
    decode 0x24510000#32 = .ok (.finv 5 1) := by decide

theorem test_decode_feq : decode 0x25055000#32 = .ok (.feq 5 5) ∧
    decode 0x25041000#32 = .ok (.feq 4 1) := by decide

theorem test_decode_psetk : decode 0x30000010#32 = .ok (.psetk 16) ∧
    decode 0x30000002#32 = .ok (.psetk 2) := by decide

theorem test_decode_pldc : decode 0x310F000F#32 = .ok (.pldc 15 15) ∧
    decode 0x31010002#32 = .ok (.pldc 2 1) := by decide

theorem test_decode_prdc : decode 0x32F0000F#32 = .ok (.prdc 15 15) ∧
    decode 0x32000002#32 = .ok (.prdc 0 2) := by decide

theorem test_decode_peval : decode 0x33FF0000#32 = .ok (.peval 15 15) ∧
    decode 0x33980000#32 = .ok (.peval 9 8) := by decide

theorem test_decode_pshare : decode 0x34000010#32 = .ok (.pshare 16) ∧
    decode 0x34000001#32 = .ok (.pshare 1) := by decide

theorem test_decode_spush : decode 0x400FE000#32 = .ok (.spush 15 14) ∧
    decode 0x40021000#32 = .ok (.spush 2 1) := by decide

theorem test_decode_srdx : decode 0x41F0000F#32 = .ok (.srdx 15 15) ∧
    decode 0x41700002#32 = .ok (.srdx 7 2) := by decide

theorem test_decode_srdy : decode 0x42000000#32 = .ok (.srdy 0 0) ∧
    decode 0x42400000#32 = .ok (.srdy 4 0) := by decide

theorem test_decode_lrecon : decode 0x43F00000#32 = .ok (.lrecon 15) ∧
    decode 0x43000000#32 = .ok (.lrecon 0) := by decide

theorem test_decode_crd : decode 0x50000000#32 = .ok (.crd 0) ∧
    decode 0x50000005#32 = .ok (.crd 5) := by decide

theorem test_decode_clr : decode 0x51000000#32 = .ok (.clr 0) ∧
    decode 0x51000007#32 = .ok (.clr 7) := by decide

/-- A word that is no command. -/
def isIllegal (cw : CommandWord) : Bool :=
  match decode cw with
  | .ok _ => false
  | .error _ => true

theorem test_decode_unassigned_opcodes : ([0x00000000#32, 0xFFFFFFFF#32, 0x60000000#32, 0x14000000#32,
    0x26000000#32, 0x35000000#32, 0x44000000#32, 0x52000000#32].all isIllegal) = true := by decide

theorem test_decode_must_be_zero : ([0x20123001#32, 0x10101000#32, 0x10110000#32, 0x12100000#32, 0x13120001#32,
    0x13121000#32, 0x25100000#32, 0x30100003#32, 0x31100000#32, 0x32010000#32, 0x43010000#32,
    0x50001000#32].all isIllegal) = true := by decide

/-- The columns `mask` and `match` of R76, written out for one command of each format. -/
theorem test_mask_and_match : [Opcode.fadd, .fmov, .feq, .fld, .fst, .srdx, .pldc, .clr].map
    (fun o => (o.mask, o.matchWord)) =
    [(0xFF000FFF#32, 0x20000000#32), (0xFF00FFFF#32, 0x13000000#32), (0xFFF00FFF#32, 0x25000000#32),
      (0xFF0FFFFF#32, 0x10000000#32)] ++
    [(0xFFF0FFFF#32, 0x12000000#32), (0xFF0FF000#32, 0x41000000#32), (0xFFF0F000#32, 0x31000000#32),
      (0xFFFFF000#32, 0x51000000#32)] := by decide

theorem test_encode : encode (.fadd 15 14 13) = 0x20FED000#32 ∧ encode (.srdx 15 15) = 0x41F0000F#32 ∧
    encode (.pldc 15 15) = 0x310F000F#32 := by decide

theorem test_decodeTableWord : decodeTableWord 32 0x40021000 = some (.spush 2 1) ∧
    decodeTableWord 32 0x20123001 = none := by decide

theorem test_asm : (Instr.fadd 3 1 2).asm = "FADD F3, F1, F2" ∧ (Instr.pldc 2 1).asm = "PLDC 2, F1" := by
  decide

/-- The words of R88 for `NOP`, `CLRALL` and `FSQR F6, F5`. -/
theorem test_pseudo : Pseudo.nop.expand.map encode = [0x51000000#32] ∧
    Pseudo.clrall.expand.map encode = [0x51000007#32] ∧
    (Pseudo.fsqr 6 5).expand.map encode = [0x22655000#32] := by decide

/-! ### Small states, modulus `P_T = 97` unless named otherwise -/

/-- The state in which a command ends. -/
def after (i : Instr) (s : State) : State :=
  match exec i s with
  | .next t => t
  | .fault _ => s
  | .refused _ => s

theorem exec_after (i : Instr) (s : State) : exec i s = .next (after i s) := by
  obtain ⟨t, h⟩ := exec_next i s
  simp [after, h]

/-- `STATUS` and `DOUT` of a command. -/
def answer (i : Instr) (s : State) : Option (BitVec 4 × Word) :=
  (after i s).response.map fun r => (r.status.code, r.dout)

/-- Right after reset, modulus 97. -/
def fresh : State := State.resetOf Config.sampleToy

/-- Registers F0 to F8 hold 0, 1, 5, 42, 96, 50, 60, 12, 13; the polynomial Q3 of 95_test_vectors.md 2.3 and
its three shares. -/
def base : State :=
  { fresh with
    F := #v[some 0, some 1, some 5, some 42, some 96, some 50, some 60, some 12, some 13,
      none, none, none, none, none, none, none]
    COEF := #v[some 2, some 3, some 42, none, none, none, none, none,
      none, none, none, none, none, none, none, none]
    K := 3
    SH := [⟨1, 47⟩, ⟨2, 56⟩, ⟨3, 69⟩]
    din := 96 }

/-- `base` with its last coefficient missing. -/
def hole : State := base.setK 3

/-- Sixteen coefficients and sixteen shares. -/
def full : State :=
  { base with
    COEF := Vector.replicate 16 (some 1)
    K := 16
    SH := (List.range 16).map fun i => ⟨toWord (i + 1), toWord i⟩ }

/-- `base` with a zero abscissa. -/
def zeroX : State := base.setShares [⟨1, 47⟩, ⟨2, 56⟩, ⟨0, 69⟩]

/-- `base` with a repeated abscissa. -/
def sameX : State := base.setShares [⟨1, 47⟩, ⟨2, 56⟩, ⟨2, 69⟩]

/-- `base` at a modulus of 128 bits, F0 and F1 the operands `a` and `b` of 95_test_vectors.md 2.2. -/
def large : State :=
  { base with
    P := Config.sampleLarge
    F := #v[some 0x0123456789ABCDEF0FEDCBA987654321, some 0xFEDCBA98765432100123456789ABCDEF,
      some 0xFFFFFFFFFFFFFFFFFFFFFFFFFFFFFF60, some 0, none, none, none, none,
      none, none, none, none, none, none, none, none] }

theorem toy_modulus_ok : Config.ModulusOk Config.sampleToy := ⟨by norm_num [Config.sampleToy], by decide⟩

theorem inv_of_checks {s : State} (hm : Config.ModulusOk s.P)
    (h : ((∀ r : Reg, (s.F[r].all fun v => decide (v.toNat < s.P.toNat)) = true) ∧
      (∀ i : Fin 16, (s.COEF[i].all fun v => decide (v.toNat < s.P.toNat)) = true) ∧
      (∀ i : Fin 16, s.K ≤ i.val → s.COEF[i] = none) ∧ (s.K = 0 ∨ 2 ≤ s.K ∧ s.K ≤ 16) ∧
      (∀ sh ∈ s.SH, (decide (sh.x.toNat < s.P.toNat) && decide (sh.y.toNat < s.P.toNat)) = true) ∧
      s.NSH ≤ 16)) : Inv s where
  modulus := hm
  registers r := (canonicalElem_iff _ _).mpr (h.1 r)
  coefficients i := (canonicalElem_iff _ _).mpr (h.2.1 i)
  polynomial := h.2.2.1
  count := h.2.2.2.1
  shares sh hsh := (canonicalShare_iff _ _).mpr (h.2.2.2.2.1 sh hsh)
  capacity := h.2.2.2.2.2

theorem test_inv_fresh : Inv fresh := inv_resetOf toy_modulus_ok

theorem test_inv_base : Inv base := inv_of_checks toy_modulus_ok (by decide)

theorem test_inv_full : Inv full := inv_of_checks toy_modulus_ok (by decide)

theorem test_inv_hole : Inv hole := test_inv_base.setK (by decide)

/-- What `base` holds as a polynomial. -/
def q3 : Nat → Word := fun i => [2, 3, 42].getD i 0

theorem test_holds_base : Holds base q3 := by unfold Holds; decide

/-! ### Commands: at most two theorems each -/

/-- M1, M3, and `FLD` of 97 with modulus 97 (95_test_vectors.md 2.1). -/
theorem test_fld : (after (.fld 9) base).F[9] = some 96 ∧ answer (.fld 9) base = some (0, 0) := by
  decide

theorem test_fld_refuses_modulus : (after (.fld 3) { base with din := 97 }).F[3] = some 42 ∧
    answer (.fld 3) { base with din := 97 } = some (1, 0) := by decide

/-- `FSETI F1, 96` and `FSETI F2, 97` with modulus 97 (95_test_vectors.md 2.1). -/
theorem test_fseti : (after (.fseti 1 96) base).F[1] = some 96 ∧ answer (.fseti 2 97) base = some (1, 0) := by
  decide

/-- M8, M13 (95_test_vectors.md 2.1). -/
theorem test_fst : answer (.fst 3) { base with din := 0xDEAD } = some (0, 42) ∧
    answer (.fst 9) base = some (1, 0) := by decide

/-- M10, M11 (95_test_vectors.md 2.1). -/
theorem test_fmov : (after (.fmov 15 8) base).F[15] = some 13 ∧ (after (.fmov 8 15) base).F[8] = some 13 ∧
    answer (.fmov 8 15) base = some (1, 0) := by decide

/-- `50 + 60 = 13` and `96 + 1 = 0` modulo 97 (95_test_vectors.md 2.2). -/
theorem test_fadd : (after (.fadd 9 5 6) base).F[9] = some 13 ∧ (after (.fadd 9 4 1) base).F[9] = some 0 := by
  decide

/-- A2, `b + b`: the carry out of 128 bits is not lost (95_test_vectors.md 2.2). -/
theorem test_fadd_large : (after (.fadd 9 1 1) large).F[9] = some 0xFDB97530ECA8642002468ACF13579C7D := by
  decide

/-- `0 - 1 = 96`, and S1 `a - b` (95_test_vectors.md 2.2). -/
theorem test_fsub : (after (.fsub 9 0 1) base).F[9] = some 96 ∧
    (after (.fsub 9 0 1) large).F[9] = some 0x02468ACF13579BDF0ECA8641FDB97493 := by decide

/-- `12 * 13 = 59`, and X1 `a * b` (95_test_vectors.md 2.2). -/
theorem test_fmul : (after (.fmul 9 7 8) base).F[9] = some 59 ∧
    (after (.fmul 9 0 1) large).F[9] = some 0x5EC10EE1D37D78C23C719DAF96409DC5 := by decide

/-- `neg 5 = 92`, `neg 0 = 0` (95_test_vectors.md 2.2). -/
theorem test_fneg : (after (.fneg 9 2) base).F[9] = some 92 ∧ (after (.fneg 9 0) base).F[9] = some 0 := by
  decide

/-- `inv 5 = 39`, and `inv 0` answers status 5 (95_test_vectors.md 2.2). -/
theorem test_finv : (after (.finv 9 2) base).F[9] = some 39 ∧ answer (.finv 9 0) base = some (5, 0) := by
  decide

/-- I7, `inv a` (95_test_vectors.md 2.2). -/
theorem test_finv_large : (after (.finv 9 0) large).F[9] = some 0xBD1BF2192B5772D19514D33DB90D247D := by
  decide +kernel

/-- E2, E3, E4 (95_test_vectors.md 2.2). -/
theorem test_feq : answer (.feq 0 0) base = some (0, 1) ∧ answer (.feq 1 2) base = some (0, 0) ∧
    answer (.feq 9 9) base = some (1, 0) := by decide

/-- R132: the polynomial is begun anew, the shares stay. -/
theorem test_psetk : (after (.psetk 16) base).K = 16 ∧ (after (.psetk 16) base).COEF[0] = none ∧
    (after (.psetk 16) base).SH = base.SH ∧ answer (.psetk 1) base = some (2, 0) ∧
    answer (.psetk 17) base = some (7, 0) := by decide

/-- R133, steps 3 and 4 of 95_test_vectors.md 2.3. -/
theorem test_pldc : (after (.pldc 2 1) base).COEF[2] = some 1 ∧ (after (.pldc 2 1) base).COEF[1] = some 3 ∧
    answer (.pldc 16 0) fresh = some (7, 0) ∧ answer (.pldc 15 0) fresh = some (2, 0) := by decide

/-- R134, steps 14 and 15 of 95_test_vectors.md 2.3. -/
theorem test_prdc : (after (.prdc 9 2) base).F[9] = some 42 ∧ answer (.prdc 0 2) hole = some (1, 0) ∧
    answer (.prdc 0 3) hole = some (7, 0) := by decide

/-- `f(0) = 42` and `f(96) = 41` modulo 97 (95_test_vectors.md 2.3). -/
theorem test_peval : (after (.peval 9 0) base).F[9] = some 42 ∧ (after (.peval 9 4) base).F[9] = some 41 ∧
    answer (.peval 9 0) hole = some (1, 0) := by decide

/-- `PSHARE 3` and `PSHARE 2` on Q3 (95_test_vectors.md 2.3). -/
theorem test_pshare : (after (.pshare 3) zeroX).SH = [⟨1, 47⟩, ⟨2, 56⟩, ⟨3, 69⟩] ∧
    (after (.pshare 2) base).SH = [⟨1, 47⟩, ⟨2, 56⟩] ∧ answer (.pshare 4) base = some (3, 0) := by
  decide

/-- R151, and the seventeenth push (95_test_vectors.md 2.4). -/
theorem test_spush : (after (.spush 2 3) base).SH = [⟨1, 47⟩, ⟨2, 56⟩, ⟨3, 69⟩, ⟨5, 42⟩] ∧
    answer (.spush 2 3) full = some (7, 0) := by decide

theorem test_srdx : (after (.srdx 9 2) base).F[9] = some 3 ∧ answer (.srdx 9 3) base = some (7, 0) := by
  decide

theorem test_srdy : (after (.srdy 9 2) base).F[9] = some 69 ∧ answer (.srdy 9 16) full = some (7, 0) := by
  decide

/-- L1, L2 and L10 (95_test_vectors.md 2.4). -/
theorem test_lrecon : (after (.lrecon 9) base).F[9] = some 42 ∧
    (after (.lrecon 9) (base.setShares [⟨3, 69⟩, ⟨1, 47⟩, ⟨2, 56⟩])).F[9] = some 42 ∧
    (after (.lrecon 9) (base.setShares [⟨1, 47⟩, ⟨2, 56⟩, ⟨3, 70⟩])).F[9] = some 43 := by decide

/-- L7, L8, L9, L13 (95_test_vectors.md 2.4). -/
theorem test_lrecon_errors : answer (.lrecon 9) (base.setShares [⟨1, 47⟩, ⟨2, 56⟩]) = some (3, 0) ∧
    answer (.lrecon 9) sameX = some (4, 0) ∧ answer (.lrecon 9) zeroX = some (4, 0) ∧
    answer (.lrecon 9) fresh = some (2, 0) := by decide

/-- R32, R33, R36: F0 to F8 hold values, three coefficients do. -/
theorem test_crd : answer (.crd 0) base = some (0, 0x80101001) ∧ answer (.crd 1) base = some (0, 97) ∧
    answer (.crd 2) base = some (0, 3) ∧ answer (.crd 4) base = some (0, 0x1FF) ∧
    answer (.crd 5) base = some (0, 7) ∧ answer (.crd 6) base = some (7, 0) := by decide

/-- R171: mask 5 discards registers and shares and keeps the polynomial. -/
theorem test_clr : (after (.clr 5) base).F[0] = none ∧ (after (.clr 5) base).SH = [] ∧
    (after (.clr 5) base).K = 3 ∧ (after (.clr 5) base).COEF[2] = some 42 ∧
    answer (.clr 8) base = some (7, 0) := by decide

/-- One step from reset runs the word put in front of the machine, whatever the modulus is. -/
theorem test_step_from_reset : ∃ t, step (State.reset.withFetchWord 32 0x30000003) = .next t ∧ t.K = 3 :=
  ⟨_, rfl, rfl⟩

/-! ### Witnesses: states and operands that meet the hypotheses of each statement, clause by clause -/

theorem test_witness_FldLoadsCanonicalWord :
    fresh.P.toNat ≤ { fresh with din := 97 }.din.toNat ∧
    base.din.toNat + 1 = base.P.toNat ∧
    base.din.toNat < base.P.toNat :=
  by decide

theorem test_witness_FsetiEmbedsImmediate :
    4095 < 4096 ∧
    base.P.toNat ≤ 97 ∧
    96 < base.P.toNat :=
  by decide

theorem test_witness_FstDeliversElement :
    base.F[(9 : Reg)] = none ∧
    base.F[(4 : Reg)] = some 96 ∧
    Inv base :=
  ⟨by decide, by decide, test_inv_base⟩

theorem test_witness_FmovCopiesElement :
    base.F[(9 : Reg)] = none ∧
    base.F[(0 : Reg)] = some 0 :=
  by decide

/-- Sums 97 (wraps to 0) and 96 (does not). -/
theorem test_witness_FaddAddsModuloP :
    (base.F[(9 : Reg)] = none ∨ base.F[(0 : Reg)] = none) ∧
    (base.F[(0 : Reg)] = none ∨ base.F[(9 : Reg)] = none) ∧
    Inv base ∧
    (base.F[(4 : Reg)] = some 96 ∧ base.F[(1 : Reg)] = some 1 ∧ base.F[(0 : Reg)] = some 0) :=
  ⟨by decide, by decide, test_inv_base, by decide⟩

/-- Operands equal, and the first one less. -/
theorem test_witness_FsubSubtractsModuloP :
    (base.F[(9 : Reg)] = none ∨ base.F[(0 : Reg)] = none) ∧
    (base.F[(0 : Reg)] = none ∨ base.F[(9 : Reg)] = none) ∧
    Inv base ∧
    (base.F[(4 : Reg)] = some 96 ∧ base.F[(0 : Reg)] = some 0) :=
  ⟨by decide, by decide, test_inv_base, by decide⟩

/-- Operands 0, 1 and `P - 1`. -/
theorem test_witness_FmulMultipliesModuloP :
    (base.F[(9 : Reg)] = none ∨ base.F[(0 : Reg)] = none) ∧
    (base.F[(0 : Reg)] = none ∨ base.F[(9 : Reg)] = none) ∧
    Inv base ∧
    (base.F[(0 : Reg)] = some 0 ∧ base.F[(1 : Reg)] = some 1 ∧ base.F[(4 : Reg)] = some 96 ∧
      (96 : Word).toNat + 1 = base.P.toNat) :=
  ⟨by decide, by decide, test_inv_base, by decide⟩

theorem test_witness_FnegNegates :
    base.F[(9 : Reg)] = none ∧
    base.F[(0 : Reg)] = some 0 ∧
    Inv base ∧
    base.F[(4 : Reg)] = some 96 :=
  ⟨by decide, by decide, test_inv_base, by decide⟩

theorem test_witness_FinvInvertsUniquely :
    base.F[(9 : Reg)] = none ∧
    base.F[(0 : Reg)] = some 0#128 ∧
    Inv base ∧
    (base.F[(1 : Reg)] = some 1 ∧ (1 : Word) ≠ 0#128 ∧ base.F[(4 : Reg)] = some 96 ∧
      (96 : Word) ≠ 0#128) :=
  ⟨by decide, by decide, test_inv_base, by decide⟩

theorem test_witness_FeqComparesElements :
    (base.F[(9 : Reg)] = none ∨ base.F[(0 : Reg)] = none) ∧
    (base.F[(0 : Reg)] = some 0 ∧ base.F[(1 : Reg)] = some 1) :=
  by decide

theorem test_witness_PsetkBeginsPolynomial :
    4095 < 4096 ∧
    16 < 17 ∧
    1 ≤ 1 ∧
    (2 ≤ 2 ∧ 2 ≤ 16) ∧
    (2 ≤ 16 ∧ 16 ≤ 16) :=
  by decide

theorem test_witness_PldcLoadsCoefficient :
    16 ≤ 16 ∧
    (15 < 16 ∧ fresh.K = 0) ∧
    (3 < 16 ∧ base.K ≠ 0 ∧ base.K ≤ 3) ∧
    (2 < 16 ∧ 2 < base.K ∧ base.F[(9 : Reg)] = none) ∧
    (2 < 16 ∧ 2 < base.K ∧ base.F[(0 : Reg)] = some 0) ∧
    (15 < 16 ∧ 15 < full.K ∧ full.F[(0 : Reg)] = some 0) :=
  by decide

theorem test_witness_PrdcReadsCoefficient :
    16 ≤ 16 ∧
    (15 < 16 ∧ fresh.K = 0) ∧
    (3 < 16 ∧ base.K ≠ 0 ∧ base.K ≤ 3) ∧
    ((2 : Fin 16).val = 2 ∧ 2 < hole.K ∧ hole.COEF[(2 : Fin 16)] = none) ∧
    ((2 : Fin 16).val = 2 ∧ 2 < base.K ∧ base.COEF[(2 : Fin 16)] = some 42) ∧
    ((15 : Fin 16).val = 15 ∧ 15 < full.K ∧ full.COEF[(15 : Fin 16)] = some 1) :=
  by decide

theorem test_witness_PevalEvaluatesPolynomial :
    fresh.K = 0 ∧
    (base.K ≠ 0 ∧ (base.F[(9 : Reg)] = none ∨ Incomplete base)) ∧
    (hole.K ≠ 0 ∧ hole.F[(0 : Reg)] = some 0 ∧ hole.COEF[(2 : Fin 16)] = none ∧ Incomplete hole) ∧
    Inv base ∧
    (base.K ≠ 0 ∧ base.F[(0 : Reg)] = some 0 ∧ base.F[(4 : Reg)] = some 96) ∧
    Holds base q3 :=
  ⟨by decide, ⟨by decide, .inl (by decide)⟩,
    ⟨by decide, by decide, by decide, 2, by decide, by decide⟩,
    test_inv_base, by decide, test_holds_base⟩

theorem test_witness_PshareGeneratesShares :
    16 < 17 ∧
    (16 ≤ 16 ∧ fresh.K = 0) ∧
    (0 ≤ 16 ∧ base.K ≠ 0 ∧ (0 = 0 ∨ base.K < 0)) ∧
    (4 ≤ 16 ∧ base.K ≠ 0 ∧ (4 = 0 ∨ base.K < 4)) ∧
    (1 ≤ 16 ∧ 1 ≠ 0 ∧ 1 ≤ hole.K ∧ Incomplete hole) ∧
    (Inv base ∧ 1 ≠ 0 ∧ 1 ≤ base.K ∧ 3 ≤ base.K ∧ Holds base q3) ∧
    (Inv full ∧ 16 ≠ 0 ∧ 16 ≤ full.K ∧ Holds full fun _ => 1) :=
  ⟨by decide, by decide, by decide, by decide,
    ⟨by decide, by decide, by decide, 0, by decide, by decide⟩,
    ⟨test_inv_base, by decide, by decide, by decide, test_holds_base⟩,
    ⟨test_inv_full, by decide, by decide, by unfold Holds; decide⟩⟩

theorem test_witness_SpushAppendsShare :
    full.NSH = 16 ∧
    (base.NSH ≠ 16 ∧ (base.F[(0 : Reg)] = none ∨ base.F[(9 : Reg)] = none)) ∧
    (base.NSH ≠ 16 ∧ base.F[(0 : Reg)] = some 0 ∧ base.F[(4 : Reg)] = some 96) ∧
    (full.setShares (full.SH.take 15)).NSH = 15 :=
  by decide

theorem test_witness_SrdxReadsAbscissa :
    (16 ≤ 16 ∨ full.NSH ≤ 16) ∧
    (16 ≤ 3 ∨ base.NSH ≤ 3) ∧
    (2 < 16 ∧ base.SH[2]? = some ⟨3, 69⟩) ∧
    (15 < 16 ∧ full.SH[15]? = some ⟨16, 15⟩) :=
  by decide

theorem test_witness_SrdyReadsOrdinate :
    (16 ≤ 16 ∨ full.NSH ≤ 16) ∧
    (16 ≤ 3 ∨ base.NSH ≤ 3) ∧
    (2 < 16 ∧ base.SH[2]? = some ⟨3, 69⟩) ∧
    (15 < 16 ∧ full.SH[15]? = some ⟨16, 15⟩) :=
  by decide

theorem test_witness_LreconInterpolatesAtZero :
    fresh.K = 0 ∧
    (fresh.setK 2).K ≠ 0 ∧
    (fresh.setK 2).NSH ≠ (fresh.setK 2).K ∧
    (zeroX.K ≠ 0 ∧ zeroX.NSH = zeroX.K ∧ badAbscissas zeroX.SHX) ∧
    (sameX.K ≠ 0 ∧ sameX.NSH = sameX.K ∧ badAbscissas sameX.SHX) ∧
    Inv base ∧
    (base.K ≠ 0 ∧ base.NSH = base.K ∧ ¬ badAbscissas base.SHX) :=
  ⟨by decide, by decide, by decide, by decide, by decide, test_inv_base,
    by decide⟩

theorem test_witness_CrdReadsCsr :
    5 < 6 ∧
    (0 ≤ 5 ∧ 5 ≤ 5) ∧
    Inv base ∧
    Inv full :=
  ⟨by decide, by decide, test_inv_base, test_inv_full⟩

theorem test_witness_ClrDiscardsByMask :
    7 < 8 ∧
    (0 ≤ 7 ∧ 0 % 2 = 0 ∧ 0 / 2 % 2 = 0 ∧ 0 / 4 % 2 = 0) ∧
    (7 ≤ 7 ∧ 7 % 2 = 1 ∧ 7 / 2 % 2 = 1 ∧ 7 / 4 % 2 = 1) :=
  by decide

theorem test_witness_DecodeOfEncodeGivesCommandBack :
    (Instr.fseti 15 4095).WellFormed ∧
    (Instr.fadd 0 15 1).WellFormed :=
  by decide

theorem test_witness_EncodeOfDecodeGivesWordBack :
    decode 0x11F00FFF#32 = .ok (.fseti 15 4095) :=
  by decide

theorem test_witness_WordIsCommandExactlyWhenMaskMatches :
    0x20FED000#32 &&& Opcode.fadd.mask = Opcode.fadd.matchWord ∧
    (Fields.ofWord 0x20123001#32).op = Opcode.fadd.code ∧
    0x20123001#32 &&& Opcode.fadd.mask ≠ Opcode.fadd.matchWord :=
  by decide

/-- `base` with one command presented. -/
def present (cw : CommandWord) (din : Word) : State := { base with inputs := [.command cw din] }

theorem test_witness_UnassignedOpcodesAreIllegal :
    (present 0#32 7).inputs = .command 0#32 7 :: [] ∧
    (present 0xFFFFFFFF#32 7).inputs = .command 0xFFFFFFFF#32 7 :: [] ∧
    Opcode.ofCode (Fields.ofWord 0x60000000#32).op = none :=
  by decide

theorem test_witness_StepRunsDecodedCommand :
    (present 0x12030000#32 7).inputs = .command 0x12030000#32 7 :: [] ∧
    decode 0x12030000#32 = .ok (.fst 3) ∧
    (Instr.fst 3).WellFormed :=
  by decide

theorem test_witness_StepIsTotalAndDetermined :
    SameMfa (present 0x12030000#32 7) { present 0x12030000#32 7 with response := some ⟨.ok, 5⟩ } ∧
    (present 0x12030000#32 7).inputs = .command 0x12030000#32 7 :: [] :=
  ⟨⟨rfl, rfl, rfl, rfl, rfl⟩, rfl⟩

theorem test_witness_ErrorChangesNoState :
    (present 0x12090000#32 7).inputs = .command 0x12090000#32 7 :: [] ∧
    (∃ t, step (present 0x12090000#32 7) = .next t ∧ t.response = some ⟨.error .invalidRepresentation, 0#128⟩) :=
  ⟨rfl, _, rfl, rfl⟩

theorem test_witness_DoutCarriesValueForThreeCommands :
    (∃ t r, step (present 0x12030000#32 7) = .next t ∧ t.response = some r ∧ r.dout ≠ 0#128 ∧ r.status = .ok ∧
      decode 0x12030000#32 = .ok (.fst 3)) ∧
    (∃ t r, step (present 0x25000000#32 7) = .next t ∧ t.response = some r ∧ r.status = .ok ∧
      decode 0x25000000#32 = .ok (.feq 0 0)) ∧
    (∃ t r, step (present 0x50000005#32 7) = .next t ∧ t.response = some r ∧ r.status = .ok ∧
      decode 0x50000005#32 = .ok (.crd 5)) ∧
    Inv (present 0x12030000#32 7) :=
  ⟨⟨_, _, rfl, rfl, by decide, rfl, by decide⟩, ⟨_, _, rfl, rfl, rfl, by decide⟩,
    ⟨_, _, rfl, rfl, rfl, by decide⟩, test_inv_base.of_same ⟨rfl, rfl, rfl, rfl, rfl⟩⟩

/-- Every error kind that the MFA raises is raised somewhere; `WrongAnswer`, code 6, never is (R207). -/
theorem test_witness_StatusCodesAndWhoRaisesThem :
    exec (.fst 9) base = .next (after (.fst 9) base) ∧
    answer (.fst 9) base = some (1, 0) ∧
    answer (.psetk 1) base = some (2, 0) ∧
    answer (.pshare 0) base = some (3, 0) ∧
    answer (.lrecon 9) sameX = some (4, 0) ∧
    answer (.finv 9 0) base = some (5, 0) ∧
    answer (.crd 6) base = some (7, 0) :=
  ⟨exec_after _ _, by decide, by decide, by decide, by decide, by decide,
    by decide⟩

theorem test_witness_NoninvertibleOnlyFromFinvOfZero :
    exec (.finv 9 0) base = .next (after (.finv 9 0) base) ∧
    (∃ d, (after (.finv 9 0) base).response = some ⟨.error .noninvertibleElement, d⟩) ∧
    base.F[(0 : Reg)] = some 0#128 :=
  ⟨exec_after _ _, ⟨0#128, by decide⟩, by decide⟩

theorem not_failsValidity_finv : ¬ FailsValidity base (.finv 9 0) := by
  rintro (⟨r, hr, h⟩ | h)
  · obtain rfl := List.mem_singleton.mp hr
    exact absurd h (by decide)
  · exact h

theorem test_witness_FirstFailingCheckIsReported :
    decode 0x60000000#32 = .error (.unassignedOpcode 0x60#8) ∧
    FailsStatic (.pshare 17) ∧
    (¬ FailsStatic (.pshare 0) ∧ FailsConfiguration fresh (.pshare 0)) ∧
    (¬ FailsConfiguration base (.pshare 0) ∧ FailsCount base (.pshare 0)) ∧
    (¬ FailsStatic (.pldc 3 9) ∧ ¬ FailsConfiguration base (.pldc 3 9) ∧ FailsIndex base (.pldc 3 9)) ∧
    (¬ FailsIndex base (.pldc 2 9) ∧ FailsValidity base (.pldc 2 9)) ∧
    (¬ FailsValidity base (.finv 9 0) ∧ FailsInverse base (.finv 9 0)) ∧
    (¬ FailsCount sameX (.lrecon 9) ∧ ¬ FailsValidity sameX (.lrecon 9) ∧ FailsAbscissa sameX (.lrecon 9)) ∧
    (¬ FailsCount base (.lrecon 9) ∧ ¬ FailsValidity base (.lrecon 9) ∧ ¬ FailsAbscissa base (.lrecon 9)) :=
  ⟨by decide, by simp [FailsStatic], ⟨by simp [FailsStatic], by dsimp only [FailsConfiguration]; decide⟩,
    ⟨by dsimp only [FailsConfiguration]; decide, .inl rfl⟩,
    ⟨by simp [FailsStatic], by dsimp only [FailsConfiguration]; decide,
      by dsimp only [FailsIndex]; decide⟩,
    ⟨by dsimp only [FailsIndex]; decide, .inl ⟨9, by decide, by decide⟩⟩,
    ⟨not_failsValidity_finv, by dsimp only [FailsInverse]; decide⟩,
    ⟨by dsimp only [FailsCount]; decide, by simp [FailsValidity, FailsElement, sources],
      .inr (by decide)⟩,
    ⟨by dsimp only [FailsCount]; decide, by simp [FailsValidity, FailsElement, sources],
      fun h => (by decide : ¬ badAbscissas base.SHX) (h.imp (fun ⟨_, hx, e⟩ => e ▸ hx) id)⟩⟩

theorem test_witness_DinIgnoredExceptByFld : ∀ rd, Instr.fst 3 ≠ .fld rd := by intro rd; simp

theorem test_witness_ReadsHaveNoSideEffect :
    exec (.fst 3) base = .next (after (.fst 3) base) ∧
    Opcode.fst = (Instr.fst 3).opcode ∧
    exec (.fst 3) (after (.fst 3) base) = .next (after (.fst 3) (after (.fst 3) base)) ∧
    exec (.lrecon 9) base = .next (after (.lrecon 9) base) ∧
    exec (.pshare 2) base = .next (after (.pshare 2) base) ∧
    exec (.pldc 2 1) base = .next (after (.pldc 2 1) base) :=
  ⟨exec_after _ _, rfl, exec_after _ _, exec_after _ _, exec_after _ _, exec_after _ _⟩

theorem test_witness_RegistersReadAndWrittenAsListed :
    exec (.fadd 15 0 4) base = .next (after (.fadd 15 0 4) base) ∧
    (∃ d, (after (.fadd 15 0 4) base).response = some ⟨.ok, d⟩) ∧
    destination (.fadd 15 0 4) ≠ some 14 ∧
    (∃ d, (after (.clr 1) base).response = some ⟨.ok, d⟩) :=
  ⟨exec_after _ _, ⟨0#128, by decide⟩, by decide, ⟨0#128, by decide⟩⟩

theorem test_witness_ModulusIsConstant : ∃ t, step (present 0x51000007#32 0) = .next t := ⟨_, rfl⟩

theorem test_witness_StepKeepsInvariant : Inv (present 0x34000003#32 0) ∧
    ∃ t, step (present 0x34000003#32 0) = .next t :=
  ⟨test_inv_base.of_same ⟨rfl, rfl, rfl, rfl, rfl⟩, _, rfl⟩

theorem test_witness_ResetMeetsInvariant : Config.ModulusOk Config.sampleToy := toy_modulus_ok

theorem test_witness_ResetEventGivesResetState :
    { base with inputs := [.reset] }.inputs = .reset :: [] := rfl

theorem test_witness_ResetAbandonsCommand :
    { base with inputs := [.abandoned 0x34000003#32 0] }.inputs = .abandoned 0x34000003#32 0 :: [] := rfl

theorem test_witness_AnswersRightAfterReset :
    AtReset fresh ∧
    15 < 16 ∧
    16 ≤ 16 ∧
    96 < fresh.P.toNat ∧
    fresh.din.toNat < fresh.P.toNat ∧
    (2 ≤ 2 ∧ 16 ≤ 16 ∧ 5 ≤ 5 ∧ 7 ≤ 7) :=
  by decide

theorem test_witness_ShareAndReconstructRoundTrip :
    Inv base ∧
    base.K ≠ 0 ∧
    Holds base q3 ∧
    base.F[(0 : Reg)] = some 0#128 ∧
    (1 ≤ 1 ∧ 3 ≤ base.K) ∧
    base.F[(1 : Reg)] = some (BitVec.ofNat 128 (0 + 1)) :=
  ⟨test_inv_base, by decide, test_holds_base, by decide, by decide, by decide⟩

/-- The three shares of `base` lie on its polynomial, modulo 97: `f(1) = 47`, `f(2) = 56`, `f(3) = 69`. -/
theorem test_shares_on_polynomial :
    ∀ sh ∈ base.SH, inField base.P sh.y = polyValue base q3 (inField base.P sh.x) := by
  intro sh hsh
  have h : sh = ⟨1, 47⟩ ∨ sh = ⟨2, 56⟩ ∨ sh = ⟨3, 69⟩ := by simpa [base] using hsh
  have hp : base.P.toNat = 97 := rfl
  have hk : base.K = 3 := rfl
  rcases h with rfl | rfl | rfl <;>
    simp only [inField, polyValue, hk, Finset.sum_range_succ, Finset.sum_range_zero] <;>
    rw [hp] <;> decide

theorem test_witness_ReconstructFromAnyPoints :
    Inv base ∧
    base.K ≠ 0 ∧
    base.NSH = base.K ∧
    ¬ badAbscissas base.SHX ∧
    (∀ i, i < base.K → (q3 i).toNat < base.P.toNat) ∧
    (∀ sh ∈ base.SH, inField base.P sh.y = polyValue base q3 (inField base.P sh.x)) :=
  ⟨test_inv_base, by decide, by decide, by decide, by decide, test_shares_on_polynomial⟩

theorem test_witness_SlotOrderDoesNotMatter :
    Inv base ∧
    [⟨3, 69⟩, ⟨1, 47⟩, ⟨2, 56⟩].Perm base.SH :=
  ⟨test_inv_base, by decide⟩

theorem test_witness_FirstFormOfInterpolation :
    Inv base ∧
    base.K ≠ 0 ∧
    base.NSH = base.K ∧
    ¬ badAbscissas base.SHX :=
  ⟨test_inv_base, by decide, by decide, by decide⟩

theorem test_witness_LreconNeverNoninvertible :
    exec (.lrecon 9) base = .next (after (.lrecon 9) base) ∧
    Inv base ∧
    ¬ badAbscissas base.SHX ∧
    0 < base.SH.length ∧
    (sameX.K ≠ 0 ∧ sameX.NSH = sameX.K ∧ ¬ sameX.SHX.Nodup) :=
  ⟨exec_after _ _, test_inv_base, by decide, by decide, by decide⟩

theorem test_witness_FieldLaws :
    Config.ModulusOk Config.sampleToy ∧
    0 < Config.sampleToy.toNat ∧
    96 < Config.sampleToy.toNat :=
  ⟨toy_modulus_ok, by decide, by decide⟩

theorem test_witness_HornerIsThePolynomial : 0 < 97 ∧ 96 < 97 := by decide

theorem test_witness_MaskThenUnmaskGivesValueBack :
    Inv base ∧
    base.F[(4 : Reg)] = some 96 ∧
    base.F[(1 : Reg)] = some 1 ∧
    (4 : Reg) ≠ 1 :=
  ⟨test_inv_base, by decide, by decide, by decide⟩

theorem test_witness_InverseTimesElementIsOne :
    Inv base ∧
    base.F[(4 : Reg)] = some 96 ∧
    (96 : Word) ≠ 0#128 ∧
    (9 : Reg) ≠ 4 :=
  ⟨test_inv_base, by decide, by decide, by decide⟩

end Sys2Proof.Tests
end

/-! PROOF. Decoding and encoding agree on well-formed commands, and what a step does with a command word
(spec 30_encoding.md R71, R77, R89). -/

namespace Sys2Proof

/-- A command built from the fields of a word has an immediate of twelve bits (R74). -/
theorem Opcode.build_wellFormed (o : Opcode) (f : Fields) : (o.build f).WellFormed := by
  cases o
  case fseti | psetk | pldc | prdc | pshare | srdx | srdy | crd | clr => exact immFits_toNat f.imm
  all_goals rfl

theorem wellFormed_of_decode {cw : CommandWord} {i : Instr} (h : decode cw = .ok i) : i.WellFormed := by
  obtain ⟨o, -, -, rfl⟩ := decode_eq_ok.mp h
  exact o.build_wellFormed _

/-- The one lemma per command of `Laws.FieldsRoundTrip`, gathered. -/
theorem Instr.fields_roundTrip (i : Instr) : Laws.FieldsRoundTrip.Statement i := by
  cases i with
  | fld rd => exact Laws.FieldsRoundTrip.fld rd
  | fseti rd imm => exact Laws.FieldsRoundTrip.fseti rd imm
  | fst ra => exact Laws.FieldsRoundTrip.fst ra
  | fmov rd ra => exact Laws.FieldsRoundTrip.fmov rd ra
  | fadd rd ra rb => exact Laws.FieldsRoundTrip.fadd rd ra rb
  | fsub rd ra rb => exact Laws.FieldsRoundTrip.fsub rd ra rb
  | fmul rd ra rb => exact Laws.FieldsRoundTrip.fmul rd ra rb
  | fneg rd ra => exact Laws.FieldsRoundTrip.fneg rd ra
  | finv rd ra => exact Laws.FieldsRoundTrip.finv rd ra
  | feq ra rb => exact Laws.FieldsRoundTrip.feq ra rb
  | psetk imm => exact Laws.FieldsRoundTrip.psetk imm
  | pldc imm ra => exact Laws.FieldsRoundTrip.pldc imm ra
  | prdc rd imm => exact Laws.FieldsRoundTrip.prdc rd imm
  | peval rd ra => exact Laws.FieldsRoundTrip.peval rd ra
  | pshare imm => exact Laws.FieldsRoundTrip.pshare imm
  | spush ra rb => exact Laws.FieldsRoundTrip.spush ra rb
  | srdx rd imm => exact Laws.FieldsRoundTrip.srdx rd imm
  | srdy rd imm => exact Laws.FieldsRoundTrip.srdy rd imm
  | lrecon rd => exact Laws.FieldsRoundTrip.lrecon rd
  | crd imm => exact Laws.FieldsRoundTrip.crd imm
  | clr imm => exact Laws.FieldsRoundTrip.clr imm

/-- The fields of the word are the command's, so the decoder finds its opcode and builds it back (R77). -/
theorem decode_encode {i : Instr} (h : i.WellFormed) : decode (encode i) = .ok i := by
  obtain ⟨hfits, hbuild⟩ := i.fields_roundTrip h
  have hfields : Fields.ofWord (encode i) = i.fields := Fields.ofWord_toWord _
  exact decode_eq_ok.mpr ⟨i.opcode, by simp [hfields], by rwa [hfields], by rwa [hfields]⟩

namespace Machine

theorem transact_of_decode_ok {cw : CommandWord} {i : Instr} (h : decode cw = .ok i) (s : State) :
    transact cw s = exec i s := by
  simp [transact, h]

theorem transact_of_decode_error {cw : CommandWord} {e : DecodeError} (h : decode cw = .error e) (s : State) :
    transact cw s = .next (s.raise .illegalCommand) := by
  simp [transact, h]

/-- A command presented is accepted and transacted (R89). -/
theorem step_of_command {s : State} {cw : CommandWord} {din : Word} {rest : List Input}
    (h : s.inputs = .command cw din :: rest) : step s = transact cw (s.accept din rest) := by
  simp [step, h]

/-- A 32-bit word put in front of a state is that command word, with the state's own `DIN`. -/
theorem tableInput_toNat (s : State) (cw : CommandWord) : tableInput s 32 cw.toNat = .command cw s.din := by
  rw [tableInput, Nat.mod_eq_of_lt cw.isLt, BitVec.ofNat_toNat, BitVec.setWidth_eq]

theorem step_withFetchWord (s : State) (cw : CommandWord) :
    step (s.withFetchWord 32 cw.toNat) = transact cw s :=
  step_of_command (congrArg (· :: s.inputs) (tableInput_toNat s cw))

/-- Settles O27: the step transacts the word presented, and the word of a well-formed command decodes to it. -/
theorem stepRunsDecodedCommand : Obligations.StepRunsDecodedCommand := by
  unfold Obligations.StepRunsDecodedCommand
  constructor
  · intro s cw din rest i hin hdec
    exact ⟨wellFormed_of_decode hdec, by rw [step_of_command hin, transact_of_decode_ok hdec, State.accept]⟩
  · intro s i hi
    rw [step_withFetchWord, transact_of_decode_ok (decode_encode hi)]

end Machine
end Sys2Proof

/-! PROOF. A step answers a next state, and the MFA part of that state and the response depend on the MFA part
of the state, the command word and `DIN` alone (spec 00_scope.md R10, 60_exceptions.md R200). -/

namespace Sys2Proof.Machine

open Sys2Proof.Safety

/-- Two states with the same MFA part differ at the port alone. -/
theorem sameMfa_iff {s s' : State} :
    SameMfa s s' ↔ ∃ d ins r, s' = { s with din := d, inputs := ins, response := r } := by
  constructor
  · rintro ⟨hP, hF, hC, hK, hS⟩
    exact ⟨s'.din, s'.inputs, s'.response, by cases s'; simp_all⟩
  · rintro ⟨d, ins, r, rfl⟩
    exact ⟨rfl, rfl, rfl, rfl, rfl⟩

/-- Two results of a command's checks that agree: the same error, or effects with the same MFA part and the
same data. -/
inductive SameResult : Except ErrorKind Effect → Except ErrorKind Effect → Prop
  | ok {t t' : State} (d : Word) (h : SameMfa t t') : SameResult (.ok (t, d)) (.ok (t', d))
  | error (k : ErrorKind) : SameResult (.error k) (.error k)

/-- After the same check or read, results agree when they agree on every value read. -/
theorem SameResult.bind {α : Type} (x : Except ErrorKind α) {f g : α → Except ErrorKind Effect}
    (h : ∀ a, SameResult (f a) (g a)) : SameResult (x >>= f) (x >>= g) := by
  cases x with
  | error k => exact .error k
  | ok a => exact h a

theorem SameResult.effect {t t' : State} (h : SameMfa t t') : SameResult (effect t) (effect t') := .ok _ h

/-- Two outcomes that agree: both are next states, with the same MFA part and the same response given. -/
def SameAnswer (o o' : Host.Outcome State Fault Refusal) : Prop :=
  ∃ t t' r, o = .next t ∧ o' = .next t' ∧ SameMfa t t' ∧ t.response = some r ∧ t'.response = some r

theorem sameAnswer_raise {s s' : State} (h : SameMfa s s') (k : ErrorKind) :
    SameAnswer (.next (s.raise k)) (.next (s'.raise k)) :=
  ⟨_, _, _, rfl, rfl, h, rfl, rfl⟩

theorem SameAnswer.complete {s s' : State} (hs : SameMfa s s') {r r' : Except ErrorKind Effect}
    (h : SameResult r r') : SameAnswer (s.complete r) (s'.complete r') := by
  cases h with
  | ok d ht => exact ⟨_, _, _, rfl, rfl, ht, rfl, rfl⟩
  | error k => exact sameAnswer_raise hs k

theorem sameMfa_clear {s s' : State} (h : SameMfa s s') (mask : Nat) :
    SameMfa (s.clear mask) (s'.clear mask) := by
  obtain ⟨hP, hF, hC, hK, hS⟩ := h
  simp [SameMfa, State.clear_P, State.clear_F, State.clear_COEF, State.clear_K, State.clear_SH, hP, hF, hC,
    hK, hS]

/-- A command's outcome depends on the MFA part of the state, and `FLD`'s on `DIN` too: the two states differ at
the port alone, so each check and read gives the same in both, and so does what is written (R100). The cases are
grouped by the number of checks and reads that come first. -/
theorem exec_sameAnswer (i : Instr) {s s' : State} (hs : SameMfa s s')
    (hdin : (∀ rd, i ≠ .fld rd) ∨ s'.din = s.din) : SameAnswer (exec i s) (exec i s') := by
  have same := hs
  obtain ⟨din, ins, resp, rfl⟩ := sameMfa_iff.mp hs
  cases i
  case fld rd =>
    obtain rfl : din = s.din := hdin.resolve_left fun h => h rd rfl
    exact SameAnswer.complete same <| .bind _ fun _ => .effect ⟨rfl, rfl, rfl, rfl, rfl⟩
  case fst | crd => exact SameAnswer.complete same <| .bind _ fun _ => .ok _ same
  case feq => exact SameAnswer.complete same <| .bind _ fun _ => .bind _ fun _ => .ok _ same
  case clr imm => exact SameAnswer.complete same <| .bind _ fun _ => .effect (sameMfa_clear same imm)
  case fseti | fmov | fadd | fsub | fmul | fneg | srdx | srdy =>
    exact SameAnswer.complete same <| .bind _ fun _ => .effect ⟨rfl, rfl, rfl, rfl, rfl⟩
  case finv | psetk | pldc | prdc =>
    exact SameAnswer.complete same <| .bind _ fun _ => .bind _ fun _ => .effect ⟨rfl, rfl, rfl, rfl, rfl⟩
  case peval | spush | lrecon =>
    exact SameAnswer.complete same <| .bind _ fun _ => .bind _ fun _ => .bind _ fun _ =>
      .effect ⟨rfl, rfl, rfl, rfl, rfl⟩
  case pshare =>
    exact SameAnswer.complete same <| .bind _ fun _ => .bind _ fun _ => .bind _ fun _ => .bind _ fun _ =>
      .effect ⟨rfl, rfl, rfl, rfl, rfl⟩

/-- A transaction's outcome depends on the word, `DIN` and the MFA part of the state (R77, R89). -/
theorem transact_sameAnswer (cw : CommandWord) {s s' : State} (hs : SameMfa s s') (hdin : s'.din = s.din) :
    SameAnswer (transact cw s) (transact cw s') := by
  cases hdec : decode cw with
  | ok i =>
    rw [transact_of_decode_ok hdec, transact_of_decode_ok hdec]
    exact exec_sameAnswer i hs (.inr hdin)
  | error e =>
    rw [transact_of_decode_error hdec, transact_of_decode_error hdec]
    exact sameAnswer_raise hs _

/-- Every step answers a next state (R10). -/
theorem step_next (s : State) : ∃ t, step s = .next t := by
  rcases step_cases s with ⟨-, h⟩ | ⟨rest, -, h⟩ | ⟨cw, din, rest, e, -, -, h⟩ | ⟨cw, din, rest, i, -, -, h⟩
  · exact ⟨_, h⟩
  · exact ⟨_, h⟩
  · exact ⟨_, h⟩
  · rw [h]
    exact exec_next i _

/-- Settles O28: accepting a command leaves the MFA parts the same, and the transaction depends on them alone. -/
theorem stepIsTotalAndDetermined : Obligations.StepIsTotalAndDetermined := by
  unfold Obligations.StepIsTotalAndDetermined
  refine ⟨step_next, fun s s' cw din rest rest' hs hin hin' => ?_⟩
  have haccept : SameMfa (s.accept din rest) (s'.accept din rest') := hs
  rw [step_of_command hin, step_of_command hin']
  exact transact_sameAnswer cw haccept rfl

end Sys2Proof.Machine

/-! PROOF. What a step can lead to, said once for every later proof about steps: the step's next state, and the
registers a command's effect reads and writes (spec 10_state.md R21, R23; 30_encoding.md R89). -/

namespace Sys2Proof.Machine

open Sys2Proof.Safety

variable {s t : State} {d : Word} {i : Instr} {r ra rb : Reg}

/-- A command ends in its effect with the answer `OK`, or in an error that changes nothing (R209). -/
theorem exec_eq_next (h : exec i s = .next t) :
    (∃ u d, Performs s u d i ∧ t = u.respond d) ∨ ∃ k, t = s.raise k := by
  rcases exec_cases i s with ⟨u, d, hp, he⟩ | ⟨k, he⟩ <;> rw [he] at h <;> cases h
  · exact .inl ⟨u, d, hp, rfl⟩
  · exact .inr ⟨k, rfl⟩

/-- A step idles, resets, or accepts a word and ends in an error or in a command's effect (R89, R216, R230). -/
theorem step_eq_next (h : step s = .next t) :
    t = s ∨ (∃ rest, t = s.hardReset rest) ∨
    ∃ din rest, (∃ k, t = (s.accept din rest).raise k) ∨
      ∃ i u d, Performs (s.accept din rest) u d i ∧ t = u.respond d := by
  rcases step_cases s with
    ⟨-, hs⟩ | ⟨rest, -, hs⟩ | ⟨cw, din, rest, e, -, -, hs⟩ | ⟨cw, din, rest, i, -, -, hs⟩ <;> rw [hs] at h
  · cases h
    exact .inl rfl
  · cases h
    exact .inr (.inl ⟨rest, rfl⟩)
  · cases h
    exact .inr (.inr ⟨din, rest, .inl ⟨_, rfl⟩⟩)
  · rcases exec_eq_next h with ⟨u, d, hp, rfl⟩ | ⟨k, rfl⟩
    · exact .inr (.inr ⟨din, rest, .inr ⟨i, u, d, hp, rfl⟩⟩)
    · exact .inr (.inr ⟨din, rest, .inl ⟨k, rfl⟩⟩)

/-- The effect of a command on `P` and the registers: one write to its destination, the discards of `CLR`, or
none. The cases are grouped by how many values and guards stand before the effect. -/
theorem Performs.registers_cases (h : Performs s t d i) :
    (∃ rd v, destination i = some rd ∧ t = s.writeF rd v) ∨ (∃ imm, i = .clr imm ∧ t = s.clear imm) ∨
      (destination i = none ∧ t.P = s.P ∧ t.F = s.F) := by
  cases i
  case fld | fseti =>
    obtain ⟨-, ht, -⟩ := h
    exact .inl ⟨_, _, rfl, ht⟩
  case fmov | fneg =>
    obtain ⟨_, -, ht, -⟩ := h
    exact .inl ⟨_, _, rfl, ht⟩
  case finv | srdx | srdy =>
    obtain ⟨_, -, -, ht, -⟩ := h
    exact .inl ⟨_, _, rfl, ht⟩
  case fadd | fsub | fmul =>
    obtain ⟨_, _, -, -, ht, -⟩ := h
    exact .inl ⟨_, _, rfl, ht⟩
  case prdc =>
    obtain ⟨_, _, -, -, -, -, ht, -⟩ := h
    exact .inl ⟨_, _, rfl, ht⟩
  case peval =>
    obtain ⟨_, _, -, -, -, ht, -⟩ := h
    exact .inl ⟨_, _, rfl, ht⟩
  case lrecon =>
    obtain ⟨-, -, -, ht, -⟩ := h
    exact .inl ⟨_, _, rfl, ht⟩
  case clr imm =>
    obtain ⟨-, ht, -⟩ := h
    exact .inr (.inl ⟨imm, rfl, ht⟩)
  case fst =>
    obtain ⟨-, rfl⟩ := h
    exact .inr (.inr ⟨rfl, rfl, rfl⟩)
  case feq =>
    obtain ⟨_, _, -, -, rfl, -⟩ := h
    exact .inr (.inr ⟨rfl, rfl, rfl⟩)
  case psetk =>
    obtain ⟨-, -, rfl, -⟩ := h
    exact .inr (.inr ⟨rfl, rfl, rfl⟩)
  case pldc =>
    obtain ⟨_, -, -, -, -, rfl, -⟩ := h
    exact .inr (.inr ⟨rfl, rfl, rfl⟩)
  case pshare =>
    obtain ⟨_, -, -, -, -, -, rfl, -⟩ := h
    exact .inr (.inr ⟨rfl, rfl, rfl⟩)
  case spush =>
    obtain ⟨_, _, -, -, -, rfl, -⟩ := h
    exact .inr (.inr ⟨rfl, rfl, rfl⟩)
  case crd =>
    obtain ⟨-, rfl, -⟩ := h
    exact .inr (.inr ⟨rfl, rfl, rfl⟩)

theorem Performs.P_eq (h : Performs s t d i) : t.P = s.P := by
  rcases h.registers_cases with ⟨rd, v, -, rfl⟩ | ⟨imm, -, rfl⟩ | ⟨-, hP, -⟩
  · rfl
  · exact s.clear_P imm
  · exact hP

theorem Performs.destination_valid (h : Performs s t d i) (hr : destination i = some r) : t.F[r] ≠ none := by
  rcases h.registers_cases with ⟨rd, v, hrd, rfl⟩ | ⟨imm, rfl, -⟩ | ⟨hnone, -⟩
  · obtain rfl : rd = r := Option.some.inj (hrd.symm.trans hr)
    simp
  · simp [destination] at hr
  · simp [hnone] at hr

/-- A register other than the destination is unchanged, `CLR` with mask bit 0 aside. -/
theorem Performs.other_register_eq (h : Performs s t d i) (hclr : ∀ imm, i = .clr imm → imm % 2 = 0)
    (hr : destination i ≠ some r) : t.F[r] = s.F[r] := by
  rcases h.registers_cases with ⟨rd, v, hrd, rfl⟩ | ⟨imm, hi, rfl⟩ | ⟨-, -, hF⟩
  · exact s.writeF_get_other v fun e => hr (e ▸ hrd)
  · simp [State.clear_F, Nat.testBit_zero, hclr imm hi]
  · rw [hF]

/-- `CLR` with mask bit 0 leaves every register unwritten. -/
theorem Performs.clr_register_none {imm : Nat} (h : Performs s t d (.clr imm)) (hodd : imm % 2 = 1) (r : Reg) :
    t.F[r] = none := by
  obtain ⟨-, rfl, -⟩ := h
  simp [State.clear_F, Nat.testBit_zero, hodd]

/-- A register read to a value is valid (R22). -/
theorem read_one_valid {a : Word} (ha : s.F[ra] = some a) : ∀ r ∈ [ra], s.F[r] ≠ none :=
  List.forall_mem_singleton.mpr (Option.ne_none_iff_exists'.mpr ⟨a, ha⟩)

theorem read_two_valid {a b : Word} (ha : s.F[ra] = some a) (hb : s.F[rb] = some b) :
    ∀ r ∈ [ra, rb], s.F[r] ≠ none :=
  List.forall_mem_cons.mpr ⟨Option.ne_none_iff_exists'.mpr ⟨a, ha⟩, read_one_valid hb⟩

/-- A command that performs its effect has read every register of its `src` column. -/
theorem Performs.sources_valid (h : Performs s t d i) : ∀ r ∈ sources i, s.F[r] ≠ none := by
  cases i
  case fst =>
    obtain ⟨ha, -⟩ := h
    exact read_one_valid ha
  case fmov | fneg | finv =>
    obtain ⟨_, ha, -⟩ := h
    exact read_one_valid ha
  case pldc =>
    obtain ⟨_, -, -, -, ha, -⟩ := h
    exact read_one_valid ha
  case peval =>
    obtain ⟨_, _, -, ha, -⟩ := h
    exact read_one_valid ha
  case fadd | fsub | fmul | feq =>
    obtain ⟨_, _, ha, hb, -⟩ := h
    exact read_two_valid ha hb
  case spush =>
    obtain ⟨_, _, -, ha, hb, -⟩ := h
    exact read_two_valid ha hb
  all_goals exact fun _ hr => nomatch hr

/-- Settles O36: a command that answers `OK` performed its effect, and an error changes no register. -/
theorem registersReadAndWrittenAsListed : Obligations.RegistersReadAndWrittenAsListed := by
  unfold Obligations.RegistersReadAndWrittenAsListed
  intro i s t h
  rcases exec_eq_next h with ⟨u, d, hp, rfl⟩ | ⟨k, rfl⟩
  · refine ⟨fun _ => ⟨hp.sources_valid, fun r => hp.destination_valid, ?_⟩, fun hclr r => hp.other_register_eq hclr⟩
    rintro imm rfl
    exact hp.clr_register_none
  · exact ⟨fun ⟨d, hd⟩ => by simp at hd, fun _ _ _ => rfl⟩

/-- Settles O37: a reset keeps `P`, no effect of a command changes it, and CSR 1 is `P`. -/
theorem modulusIsConstant : Obligations.ModulusIsConstant := by
  unfold Obligations.ModulusIsConstant
  constructor
  · intro s t h
    rcases step_eq_next h with rfl | ⟨rest, rfl⟩ | ⟨din, rest, ⟨k, rfl⟩ | ⟨i, u, d, hp, rfl⟩⟩
    · rfl
    · rfl
    · rfl
    · exact hp.P_eq
  · intro s
    have hp : Performs s s s.P (.crd 1) := ⟨by decide, rfl, rfl⟩
    exact ⟨_, exec_of_performs hp, ⟨rfl, rfl, rfl, rfl, rfl⟩, ⟨rfl, rfl⟩, rfl⟩

end Sys2Proof.Machine

/-! PROOF. The invariant holds after reset and every step keeps it (spec 10_state.md R27, R30, R37, R40). -/

namespace Sys2Proof.Safety

open Sys2Proof.Machine

variable {s t : State}

/-- A result of field arithmetic is written canonical (R38). -/
theorem Inv.writeF_toWord (h : Inv s) (rd : Reg) {n : Nat} (hn : n < s.P.toNat) : Inv (s.writeF rd (toWord n)) :=
  h.writeF rd (toWord_canonical hn)

/-- A share that is read is a pair of field elements (R30). -/
theorem Inv.share_getElem? (h : Inv s) {imm : Nat} {sh : Share} (hsh : s.SH[imm]? = some sh) :
    CanonicalShare s.P sh :=
  h.shares sh (List.mem_of_getElem? hsh)

/-- At most sixteen shares of a polynomial are shares of field elements, for `P` is above `KMAX` (R7, R136). -/
theorem Inv.sharesUpTo_canonical (h : Inv s) (coefs : List Nat) {n : Nat} (hn : n ≤ 16) :
    ∀ sh ∈ sharesUpTo s.P.toNat coefs n, CanonicalShare s.P sh := by
  intro sh hsh
  obtain ⟨j, hj, rfl⟩ := List.mem_map.mp hsh
  have hx : j + 1 < s.P.toNat := by
    have hP := h.sixteen_lt
    have hjn := List.mem_range.mp hj
    omega
  exact ⟨toWord_canonical hx, toWord_canonical (Field.horner_lt h.pos coefs _)⟩

/-- The effect of every command keeps the invariant: what it writes was canonical where it was read, or is a
result of field arithmetic. -/
theorem Inv.performs {d : Word} {i : Instr} (h : Inv s) (hp : Performs s t d i) : Inv t := by
  cases i with
  | fld rd =>
    obtain ⟨hlt, rfl, -⟩ := hp
    exact h.writeF rd hlt
  | fseti rd imm =>
    obtain ⟨hlt, rfl, -⟩ := hp
    exact h.writeF_toWord rd hlt
  | fst ra =>
    obtain ⟨-, rfl⟩ := hp
    exact h
  | fmov rd ra =>
    obtain ⟨a, ha, rfl, -⟩ := hp
    exact h.writeF rd (h.registers ra a ha)
  | fadd rd ra rb =>
    obtain ⟨a, b, -, -, rfl, -⟩ := hp
    exact h.writeF_toWord rd (Field.add_lt h.pos _ _)
  | fsub rd ra rb =>
    obtain ⟨a, b, -, -, rfl, -⟩ := hp
    exact h.writeF_toWord rd (Field.sub_lt h.pos _ _)
  | fmul rd ra rb =>
    obtain ⟨a, b, -, -, rfl, -⟩ := hp
    exact h.writeF_toWord rd (Field.mul_lt h.pos _ _)
  | fneg rd ra =>
    obtain ⟨a, -, rfl, -⟩ := hp
    exact h.writeF_toWord rd (Field.neg_lt h.pos _)
  | finv rd ra =>
    obtain ⟨a, -, -, rfl, -⟩ := hp
    exact h.writeF_toWord rd (Field.inv_lt h.pos _)
  | feq ra rb =>
    obtain ⟨a, b, -, -, rfl, -⟩ := hp
    exact h
  | psetk imm =>
    obtain ⟨hlow, hhigh, rfl, -⟩ := hp
    exact h.setK (.inr ⟨hlow, hhigh⟩)
  | pldc imm ra =>
    obtain ⟨a, -, -, hK, ha, rfl, -⟩ := hp
    exact h.writeCoef hK (h.registers ra a ha)
  | prdc rd imm =>
    obtain ⟨j, c, -, -, -, hc, rfl, -⟩ := hp
    exact h.writeF rd (h.coefficients j c hc)
  | peval rd ra =>
    obtain ⟨x, vs, -, -, -, rfl, -⟩ := hp
    exact h.writeF_toWord rd (Field.horner_lt h.pos _ _)
  | pshare imm =>
    obtain ⟨vs, himm, -, -, -, -, rfl, -⟩ := hp
    exact h.setShares (h.sharesUpTo_canonical _ himm) (by simpa [sharesUpTo] using himm)
  | spush ra rb =>
    obtain ⟨x, y, hfull, hx, hy, rfl, -⟩ := hp
    exact h.pushShare (h.registers ra x hx) (h.registers rb y hy) (lt_of_le_of_ne h.capacity hfull)
  | srdx rd imm =>
    obtain ⟨sh, -, hsh, rfl, -⟩ := hp
    exact h.writeF rd (h.share_getElem? hsh).1
  | srdy rd imm =>
    obtain ⟨sh, -, hsh, rfl, -⟩ := hp
    exact h.writeF rd (h.share_getElem? hsh).2
  | lrecon rd =>
    obtain ⟨-, -, -, rfl, -⟩ := hp
    exact h.writeF_toWord rd (Field.lagrange0_lt h.pos _)
  | crd imm =>
    obtain ⟨-, rfl, -⟩ := hp
    exact h
  | clr imm =>
    obtain ⟨-, rfl, -⟩ := hp
    exact h.clear imm

/-- Settles O38: accepting, answering, a reset and the effect of every command keep the invariant. -/
theorem stepKeepsInvariant : Obligations.StepKeepsInvariant := by
  unfold Obligations.StepKeepsInvariant
  intro s t h hstep
  rcases step_eq_next hstep with rfl | ⟨rest, rfl⟩ | ⟨din, rest, ⟨k, rfl⟩ | ⟨i, u, d, hp, rfl⟩⟩
  · exact h
  · exact h.hardReset rest
  · exact (h.accept din rest).raise k
  · exact ((h.accept din rest).performs hp).respond d

/-- Settles O39: the reset state of any admissible modulus meets the invariant, and the model's own modulus is
admissible, whichever it is (notes/assumptions/1.md). -/
theorem resetMeetsInvariant : Obligations.ResetMeetsInvariant := by
  unfold Obligations.ResetMeetsInvariant
  exact ⟨fun _ hP => inv_resetOf hP, rfl, inv_resetOf modulus_ok⟩

end Sys2Proof.Safety

/-! PROOF. No read of a memory has a side effect, and a port word is made up of its byte lanes (spec 20_memory.md
R51, R54). -/

namespace Sys2Proof.Machine

open Sys2Proof.Safety

variable {s t u : State} {d : Word} {i : Instr} {rd : Reg}

/-- The commands that answer on `DOUT` have no effect (R54). -/
theorem Performs.eq_of_delivers (h : Performs s t d i) (hi : i.opcode ∈ [.fst, .feq, .crd]) : t = s := by
  cases i
  case fst =>
    obtain ⟨-, ht⟩ := h
    exact ht
  case feq =>
    obtain ⟨_, _, -, -, ht, -⟩ := h
    exact ht
  case crd =>
    obtain ⟨-, ht, -⟩ := h
    exact ht
  all_goals simp [Instr.opcode] at hi

/-- A command with a destination register writes nothing but registers (R23). -/
theorem Performs.memory_eq_of_destination (h : Performs s t d i) (hd : destination i = some rd) :
    t.COEF = s.COEF ∧ t.K = s.K ∧ t.SH = s.SH := by
  rcases h.registers_cases with ⟨_, v, -, rfl⟩ | ⟨imm, rfl, -⟩ | ⟨hnone, -⟩
  · exact ⟨rfl, rfl, rfl⟩
  · simp [destination] at hd
  · simp [hnone] at hd

/-- A command without a destination register keeps all registers, `CLR` aside (R23). -/
theorem Performs.registers_eq (h : Performs s t d i) (hd : destination i = none) (hi : i.opcode ≠ .clr) :
    t.F = s.F := by
  rcases h.registers_cases with ⟨rd, v, hrd, -⟩ | ⟨imm, rfl, -⟩ | ⟨-, -, hF⟩
  · simp [hd] at hrd
  · exact absurd rfl hi
  · exact hF

theorem Performs.pshare_frame {imm : Nat} (h : Performs s t d (.pshare imm)) :
    t.COEF = s.COEF ∧ t.K = s.K ∧ t.F = s.F := by
  obtain ⟨_, -, -, -, -, -, rfl, -⟩ := h
  exact ⟨rfl, rfl, rfl⟩

/-- The commands that read a memory, evaluate or interpolate into a register name it as their destination. -/
theorem destination_of_reads_memory (hi : i.opcode ∈ [.prdc, .peval, .srdx, .srdy, .lrecon]) :
    ∃ rd, destination i = some rd := by
  cases i
  case prdc | peval | srdx | srdy | lrecon => exact ⟨_, rfl⟩
  all_goals simp [Instr.opcode] at hi

theorem destination_of_loads_memory (hi : i.opcode ∈ [.spush, .pldc]) : destination i = none := by
  cases i
  case spush | pldc => rfl
  all_goals simp [Instr.opcode] at hi

/-- A command that left the MFA and `DIN` as they were gives the same response when it is executed again. -/
theorem exec_again_response (h : exec i s = .next t) (hst : SameMfa s t) (hdin : t.din = s.din)
    (hu : exec i t = .next u) : u.response = t.response := by
  obtain ⟨t', u', r, ht, hu', -, hr, hr'⟩ := exec_sameAnswer i hst (.inr hdin)
  cases h.symm.trans ht
  cases hu.symm.trans hu'
  rw [hr, hr']

/-- Settles O35: an error changes nothing, and each performed command is seen by its own frame. -/
theorem readsHaveNoSideEffect : Obligations.ReadsHaveNoSideEffect := by
  unfold Obligations.ReadsHaveNoSideEffect
  intro i s t h
  rcases exec_eq_next h with ⟨v, d, hp, rfl⟩ | ⟨k, rfl⟩
  · refine ⟨fun hi => ?_, fun hi => ?_, fun hi => ?_, fun hi => ?_⟩
    · obtain rfl := hp.eq_of_delivers hi
      have same : SameMfa v (v.respond d) := ⟨rfl, rfl, rfl, rfl, rfl⟩
      exact ⟨same, fun u => exec_again_response h same rfl⟩
    · obtain ⟨rd, hd⟩ := destination_of_reads_memory hi
      exact hp.memory_eq_of_destination hd
    · cases i
      case pshare => exact hp.pshare_frame
      all_goals simp [Instr.opcode] at hi
    · exact hp.registers_eq (destination_of_loads_memory hi) fun hclr => by simp [hclr] at hi
  · have same : SameMfa s (s.raise k) := ⟨rfl, rfl, rfl, rfl, rfl⟩
    exact ⟨fun _ => ⟨same, fun u => exec_again_response h same rfl⟩, fun _ => ⟨rfl, rfl, rfl⟩,
      fun _ => ⟨rfl, rfl, rfl⟩, fun _ => rfl⟩

/-- Byte lane `j` of a word as an integer: its bits `8j+7 : 8j` (R51). -/
theorem byteLane_toNat (w : Word) (j : Fin 16) :
    (byteLane w j).toNat = w.toNat / 2 ^ (8 * j.val) % 2 ^ 8 := by
  rw [byteLane, BitVec.extractLsb'_toNat, Nat.shiftRight_eq_div_pow]

/-- The low `k` bytes of a number are the sum of those bytes, each at its place. -/
theorem mod_two_pow_eq_sum_bytes (n k : Nat) :
    n % 2 ^ (8 * k) = ∑ j ∈ Finset.range k, n / 2 ^ (8 * j) % 2 ^ 8 * 2 ^ (8 * j) := by
  induction k with
  | zero => exact Nat.mod_one n
  | succ k ih =>
    rw [Finset.sum_range_succ, ← ih, Nat.mul_succ, Nat.pow_add, Nat.mod_mul, Nat.mul_comm (2 ^ (8 * k))]

/-- Settles O52: a word is below `2 ^ (8 * 16)`, so its low sixteen bytes are all of it. -/
theorem byteLanesMakeUpWord : Obligations.ByteLanesMakeUpWord := by
  unfold Obligations.ByteLanesMakeUpWord
  intro w
  have hw : w.toNat < 2 ^ (8 * 16) := w.isLt
  calc w.toNat
      = w.toNat % 2 ^ (8 * 16) := (Nat.mod_eq_of_lt hw).symm
    _ = ∑ j ∈ Finset.range 16, w.toNat / 2 ^ (8 * j) % 2 ^ 8 * 2 ^ (8 * j) := mod_two_pow_eq_sum_bytes _ _
    _ = ∑ j : Fin 16, w.toNat / 2 ^ (8 * j.val) % 2 ^ 8 * 2 ^ (8 * j.val) := Finset.sum_range _
    _ = ∑ j : Fin 16, (byteLane w j).toNat * 2 ^ (8 * j.val) := by simp only [byteLane_toNat]

end Sys2Proof.Machine

/-! PROOF. What a word must be to be a command, seen on its five fields, and that decoding and encoding undo each
other (spec 30_encoding.md R71 to R77, R84, R85, R87). -/

namespace Sys2Proof

open Sys2Proof.Machine Sys2Proof.Safety

/-- Settles O22: the word holds the command's fields, and the command is built back from them. -/
theorem decodeOfEncodeGivesCommandBack : Obligations.DecodeOfEncodeGivesCommandBack := fun _ => decode_encode

/-! ### A decoded word is encoded back -/

/-- The must-be-zero check, field by field (R73). -/
theorem Fields.fits_iff {f : Fields} {fmt : Format} :
    f.fits fmt = true ↔ (fmt.usesRd = true ∨ f.rd = 0#4) ∧ (fmt.usesRa = true ∨ f.ra = 0#4) ∧
      (fmt.usesRb = true ∨ f.rb = 0#4) ∧ (fmt.usesImm = true ∨ f.imm = 0#12) := by
  simp [Fields.fits, and_assoc]

/-- The fields of a command built from `f`: those its format uses are `f`'s, the others are zero (R72, R73). -/
theorem Opcode.fields_build (o : Opcode) (f : Fields) :
    (o.build f).fields = ⟨o.code, if o.format.usesRd then f.rd else 0#4, if o.format.usesRa then f.ra else 0#4,
      if o.format.usesRb then f.rb else 0#4, if o.format.usesImm then f.imm else 0#12⟩ := by
  cases o
  case fseti | psetk | pldc | prdc | pshare | srdx | srdy | crd | clr =>
    exact Fields.ext rfl rfl rfl rfl (immField_toNat_self f.imm)
  all_goals rfl

theorem ite_used_eq_self {uses : Bool} {w : Nat} {x : BitVec w} (h : uses = true ∨ x = 0#w) :
    (if uses then x else 0#w) = x :=
  ite_eq_left_iff.mpr fun hunused => (h.resolve_left hunused).symm

/-- Fields that pass the must-be-zero check are all in the command built from them. -/
theorem Opcode.fields_build_of_fits {o : Opcode} {f : Fields} (hop : f.op = o.code)
    (hfits : f.fits o.format = true) : (o.build f).fields = f := by
  obtain ⟨hrd, hra, hrb, himm⟩ := Fields.fits_iff.mp hfits
  rw [o.fields_build f]
  exact Fields.ext hop.symm (ite_used_eq_self hrd) (ite_used_eq_self hra) (ite_used_eq_self hrb)
    (ite_used_eq_self himm)

/-- An opcode is found under its own number and no other (R77 step 1). -/
theorem Opcode.ofCode_eq_some {c : BitVec 8} {o : Opcode} : Opcode.ofCode c = some o ↔ c = o.code := by
  constructor
  · exact fun h => (Opcode.code_of_ofCode h).symm
  · rintro rfl
    exact o.ofCode_code

theorem encode_decode {cw : CommandWord} {i : Instr} (h : decode cw = .ok i) : encode i = cw := by
  obtain ⟨o, hop, hfits, rfl⟩ := decode_eq_ok.mp h
  rw [encode, Opcode.fields_build_of_fits (Opcode.ofCode_eq_some.mp hop) hfits, Fields.toWord_ofWord]

/-- Settles O23: the must-be-zero check leaves no bit of the word that the command does not hold. -/
theorem encodeOfDecodeGivesWordBack : Obligations.EncodeOfDecodeGivesWordBack :=
  fun _ _ h => ⟨wellFormed_of_decode h, encode_decode h⟩

/-! ### The mask and match columns -/

theorem Fields.ofWord_inj {x y : CommandWord} : Fields.ofWord x = Fields.ofWord y ↔ x = y := by
  constructor
  · intro h
    rw [← Fields.toWord_ofWord x, h, Fields.toWord_ofWord]
  · exact congrArg Fields.ofWord

theorem Fields.ofWord_and (x y : CommandWord) :
    Fields.ofWord (x &&& y) = ⟨(Fields.ofWord x).op &&& (Fields.ofWord y).op,
      (Fields.ofWord x).rd &&& (Fields.ofWord y).rd, (Fields.ofWord x).ra &&& (Fields.ofWord y).ra,
      (Fields.ofWord x).rb &&& (Fields.ofWord y).rb, (Fields.ofWord x).imm &&& (Fields.ofWord y).imm⟩ := by
  simp only [Fields.ofWord, BitVec.extractLsb'_and]

/-- What the mask keeps of a field: nothing of one that the format uses, all of one that must be zero (R73). -/
def maskField (uses : Bool) (w : Nat) : BitVec w := if uses then 0#w else BitVec.allOnes w

theorem and_maskField_eq_zero {uses : Bool} {w : Nat} {x : BitVec w} :
    x &&& maskField uses w = 0#w ↔ uses = true ∨ x = 0#w := by
  cases uses <;> simp [maskField]

/-- The mask column keeps the opcode and the must-be-zero fields (R73, R76). -/
theorem Opcode.ofWord_mask (o : Opcode) :
    Fields.ofWord o.mask = ⟨BitVec.allOnes 8, maskField o.format.usesRd 4, maskField o.format.usesRa 4,
      maskField o.format.usesRb 4, maskField o.format.usesImm 12⟩ := by
  rw [Opcode.mask]
  cases o.format <;> rfl

theorem Opcode.ofWord_matchWord (o : Opcode) : Fields.ofWord o.matchWord = ⟨o.code, 0#4, 0#4, 0#4, 0#12⟩ := by
  cases o <;> rfl

/-- Matching under the mask is having the opcode and zero in every must-be-zero field (R73). -/
theorem Opcode.and_mask_eq_matchWord_iff {cw : CommandWord} {o : Opcode} :
    cw &&& o.mask = o.matchWord ↔ (Fields.ofWord cw).op = o.code ∧ (Fields.ofWord cw).fits o.format = true := by
  rw [← Fields.ofWord_inj, Fields.ofWord_and, o.ofWord_mask, o.ofWord_matchWord, Fields.mk.injEq,
    BitVec.and_allOnes, and_maskField_eq_zero, and_maskField_eq_zero, and_maskField_eq_zero,
    and_maskField_eq_zero, Fields.fits_iff]

/-- The words that decode to a command of one opcode (R77). -/
theorem decode_opcode_iff {cw : CommandWord} {o : Opcode} :
    (∃ i, decode cw = .ok i ∧ i.opcode = o) ↔
      (Fields.ofWord cw).op = o.code ∧ (Fields.ofWord cw).fits o.format = true := by
  simp only [decode_eq_ok, Opcode.ofCode_eq_some]
  constructor
  · rintro ⟨i, ⟨o', hop, hfits, rfl⟩, ho⟩
    obtain rfl : o' = o := (o'.opcode_build _).symm.trans ho
    exact ⟨hop, hfits⟩
  · rintro ⟨hop, hfits⟩
    exact ⟨_, ⟨o, hop, hfits, rfl⟩, o.opcode_build _⟩

/-! ### Words that are no command -/

/-- A word of an assigned opcode with a must-be-zero field set is no command (R77 step 2). -/
theorem decode_mustBeZero {cw : CommandWord} {o : Opcode} (hop : (Fields.ofWord cw).op = o.code)
    (hfits : (Fields.ofWord cw).fits o.format ≠ true) : decode cw = .error (.mustBeZero o) := by
  simp [decode, hop, hfits]

/-- A word of an unassigned opcode is no command (R77 step 1). -/
theorem decode_unassigned {cw : CommandWord} (h : Opcode.ofCode (Fields.ofWord cw).op = none) :
    decode cw = .error (.unassignedOpcode (Fields.ofWord cw).op) := by
  simp [decode, h]

/-- A word that is no command answers `IllegalCommand` and changes nothing (R84). -/
theorem transact_errs {cw : CommandWord} {e : DecodeError} (h : decode cw = .error e) (s : State) :
    ∃ t, transact cw s = .next t ∧ Errs s t .illegalCommand :=
  ⟨_, transact_of_decode_error h s, ⟨rfl, rfl, rfl, rfl, rfl⟩, ⟨rfl, rfl⟩, rfl⟩

/-- Settles O24: both sides say that the opcode is there and the must-be-zero fields are zero. -/
theorem wordIsCommandExactlyWhenMaskMatches : Obligations.WordIsCommandExactlyWhenMaskMatches := by
  unfold Obligations.WordIsCommandExactlyWhenMaskMatches
  refine ⟨fun cw o => ⟨decode_opcode_iff.trans Opcode.and_mask_eq_matchWord_iff.symm, fun s hop hne => ?_⟩,
    fun s => ⟨by decide, ?_⟩⟩
  · have hfits : (Fields.ofWord cw).fits o.format ≠ true := fun hfits =>
      hne (Opcode.and_mask_eq_matchWord_iff.mpr ⟨hop, hfits⟩)
    exact transact_errs (decode_mustBeZero hop hfits) s
  · have hdec : decode 0x20123001#32 = .error (.mustBeZero .fadd) := by decide
    exact transact_errs hdec s

/-- The assigned numbers below 256 are the twenty-one opcodes' own, each once (R76). -/
theorem assigned_perm_codes :
    ((List.range 256).filter fun n => !(Opcode.ofCode (BitVec.ofNat 8 n)).isNone).Perm
      (Opcode.all.map fun o => o.code.toNat) := by
  refine (List.perm_ext_iff_of_nodup (List.nodup_range.filter _) (by decide)).mpr fun n => ?_
  simp only [List.mem_filter, List.mem_range, List.mem_map, Opcode.ofCode, Option.not_isNone, List.find?_isSome,
    beq_iff_eq]
  constructor
  · rintro ⟨hn, o, ho, hcode⟩
    exact ⟨o, ho, by rw [hcode, BitVec.toNat_ofNat, Nat.mod_eq_of_lt hn]⟩
  · rintro ⟨o, ho, rfl⟩
    exact ⟨o.code.isLt, o, ho, by rw [BitVec.ofNat_toNat, BitVec.setWidth_eq]⟩

/-- Of the 256 numbers all but those of the twenty-one opcodes are unassigned (R84). -/
theorem length_unassigned :
    ((List.range 256).filter fun n => (Opcode.ofCode (BitVec.ofNat 8 n)).isNone).length = 235 := by
  have hassigned := assigned_perm_codes.length_eq
  have htotal := (List.range 256).length_eq_length_filter_add
    fun n => (Opcode.ofCode (BitVec.ofNat 8 n)).isNone
  rw [hassigned, List.length_range, List.length_map] at htotal
  have hall : Opcode.all.length = 21 := rfl
  omega

/-- Settles O25: 0x00 and 0xFF are unassigned themselves, so the two fixed words are words of such an opcode. -/
theorem unassignedOpcodesAreIllegal : Obligations.UnassignedOpcodesAreIllegal := by
  unfold Obligations.UnassignedOpcodesAreIllegal
  refine ⟨length_unassigned, by decide, by decide, fun s cw din rest hin hcw => ?_⟩
  have hop : Opcode.ofCode (Fields.ofWord cw).op = none := by
    rcases hcw with h | rfl | rfl
    · exact h
    · decide
    · decide
  obtain ⟨t, ht, hmfa, ⟨-, hinputs⟩, hresp⟩ := transact_errs (decode_unassigned hop) (s.accept din rest)
  exact ⟨t, (step_of_command hin).trans ht, hmfa, hinputs, hresp⟩

/-- Settles O26: each word is the encoding of its command. -/
theorem sampleWordsDecode : Obligations.SampleWordsDecode := by
  unfold Obligations.SampleWordsDecode
  exact ⟨decode_encode (i := .fadd 3 1 2) rfl, decode_encode (i := .finv 5 1) rfl,
    decode_encode (i := .spush 2 1) rfl, decode_encode (i := .lrecon 10) rfl,
    decode_encode (i := .fst 6) rfl, decode_encode (i := .prdc 1 2) rfl,
    decode_encode (i := .pldc 2 1) rfl, decode_encode (i := .psetk 3) rfl⟩

end Sys2Proof

/-! PROOF. What a step answers to a command word: which commands deliver a value on `DOUT`, and that `DIN` is read
by `FLD` alone (spec 30_encoding.md R75, R89, R90). -/

namespace Sys2Proof.Machine

open Sys2Proof.Safety

variable {s t : State} {d : Word} {i : Instr} {cw : CommandWord}

/-- A status is one of the codes 0 to 7 (R90, R201). -/
theorem Status.code_toNat_le (st : Status) : st.code.toNat ≤ 7 := by
  cases st with
  | ok => decide
  | error k => cases k <;> decide

theorem boolWord_cases (b : Bool) : boolWord b = 0#128 ∨ boolWord b = 1#128 := by
  cases b
  · exact .inl rfl
  · exact .inr rfl

/-- A command that performs its effect delivers 0, unless it is one of the three that answer on `DOUT` (R90). -/
theorem Performs.delivers_of_ne_zero (h : Performs s t d i) (hd : d ≠ 0#128) :
    i.opcode = .fst ∨ i.opcode = .feq ∨ i.opcode = .crd := by
  cases i
  case fst => exact .inl rfl
  case feq => exact .inr (.inl rfl)
  case crd => exact .inr (.inr rfl)
  all_goals simp [Performs, hd] at h

/-- A transaction ends in its command's effect with the answer `OK`, or in an error that changes nothing. -/
theorem transact_eq_next (h : transact cw s = .next t) :
    (∃ i u d, decode cw = .ok i ∧ Performs s u d i ∧ t = u.respond d) ∨ ∃ k, t = s.raise k := by
  cases hdec : decode cw with
  | ok i =>
    rw [transact_of_decode_ok hdec] at h
    rcases exec_eq_next h with ⟨u, d, hp, rfl⟩ | hraise
    · exact .inl ⟨i, u, d, rfl, hp, rfl⟩
    · exact .inr hraise
  | error e =>
    rw [transact_of_decode_error hdec] at h
    cases h
    exact .inr ⟨_, rfl⟩

/-- Settles O30: an error answers 0, and the value of each of the three commands is what it performs. -/
theorem doutCarriesValueForThreeCommands : Obligations.DoutCarriesValueForThreeCommands := by
  unfold Obligations.DoutCarriesValueForThreeCommands
  intro s t cw din rest hin hstep
  rw [step_of_command hin] at hstep
  rcases transact_eq_next hstep with ⟨i, u, d, hdec, hp, rfl⟩ | ⟨k, rfl⟩
  · refine ⟨_, rfl, Status.code_toNat_le _, fun hd => ⟨rfl, i, hdec, hp.delivers_of_ne_zero hd⟩, ?_, ?_, ?_⟩
    · intro ra hfst _
      cases hdec.symm.trans hfst
      obtain ⟨ha, -⟩ := hp
      exact ⟨ha, fun hinv => hinv.registers ra d ha⟩
    · intro ra rb hfeq _
      cases hdec.symm.trans hfeq
      obtain ⟨a, b, -, -, -, rfl⟩ := hp
      exact boolWord_cases _
    · intro imm hcrd _
      cases hdec.symm.trans hcrd
      obtain ⟨-, -, hd⟩ := hp
      exact hd
  · exact ⟨_, rfl, Status.code_toNat_le _, fun hd => absurd rfl hd, nofun, nofun, nofun⟩

/-- Settles O34: two states that differ in `DIN` alone have the same MFA part. -/
theorem dinIgnoredExceptByFld : Obligations.DinIgnoredExceptByFld := by
  unfold Obligations.DinIgnoredExceptByFld
  intro i s d hi
  have same : SameMfa s { s with din := d } := ⟨rfl, rfl, rfl, rfl, rfl⟩
  obtain ⟨t, t', r, ht, ht', hmfa, hr, hr'⟩ := exec_sameAnswer i same (.inl hi)
  exact ⟨t, t', ht, ht', hmfa, hr'.trans hr.symm⟩

end Sys2Proof.Machine

/-! PROOF. How a command's outcome is read in the statements: its answer with the frame it leaves, and its word
field by field (spec 00_scope.md R13; 30_encoding.md R71, R90; 60_exceptions.md R209). -/

namespace Sys2Proof.Machine

open Sys2Proof.Safety

variable {s : State} {d v : Word} {i : Instr} {rd : Reg}

/-! ### Answers with their frames -/

theorem State.raise_errs (s : State) (k : ErrorKind) : Errs s (s.raise k) k :=
  ⟨⟨rfl, rfl, rfl, rfl, rfl⟩, ⟨rfl, rfl⟩, rfl⟩

theorem State.respond_answers (s : State) (d : Word) : Answers s (s.respond d) d :=
  ⟨⟨rfl, rfl, rfl, rfl, rfl⟩, ⟨rfl, rfl⟩, rfl⟩

theorem State.respond_writesF (s : State) (rd : Reg) (v : Word) :
    WritesF s ((s.writeF rd v).respond 0#128) rd v :=
  ⟨s.writeF_get_self rd v, fun _ hr => s.writeF_get_other v hr, rfl, rfl, rfl, rfl, ⟨rfl, rfl⟩, rfl⟩

/-- A command whose next check or read fails ends in that error, whatever would come after it. -/
theorem State.complete_bind_errs {α : Type} {x : Except ErrorKind α} {k : ErrorKind} (hx : x = .error k)
    (f : α → Except ErrorKind Effect) : ∃ t, s.complete (x >>= f) = .next t ∧ Errs s t k := by
  subst hx
  exact ⟨_, rfl, s.raise_errs k⟩

/-- A command whose effect is one register write answers `OK` with that write and nothing else. -/
theorem exec_writesF (h : Performs s (s.writeF rd v) 0#128 i) : ∃ t, exec i s = .next t ∧ WritesF s t rd v :=
  ⟨_, exec_of_performs h, s.respond_writesF rd v⟩

/-- A command without an effect answers `OK` with what it delivers. -/
theorem exec_answers (h : Performs s s d i) : ∃ t, exec i s = .next t ∧ Answers s t d :=
  ⟨_, exec_of_performs h, s.respond_answers d⟩

/-! ### The word of a command -/

/-- A command's word is known once its opcode number and its four operand fields are. -/
theorem encodesAs_of_fields {op rd ra rb imm : Nat} (hop : i.opcode.code.toNat = op)
    (hrd : i.fields.rd.toNat = rd) (hra : i.fields.ra.toNat = ra) (hrb : i.fields.rb.toNat = rb)
    (himm : i.fields.imm.toNat = imm) : EncodesAs i op rd ra rb imm := by
  rw [EncodesAs, encode, Fields.toNat_toWord, Instr.fields_op, hop, hrd, hra, hrb, himm]

end Sys2Proof.Machine

/-! PROOF. The field element constructors and moves: FLD, FSETI, FST, FMOV (spec
40_field_constructors_and_moves.md R101 to R104). -/

namespace Sys2Proof.Machine

open Sys2Proof.Safety

/-- The canonical-range test refuses an integer that is not below `P` (R101, R102). -/
theorem State.canonical_error {s : State} {n : Nat} (h : s.P.toNat ≤ n) :
    s.canonical n = .error .invalidRepresentation :=
  raiseIf_pos h _

/-- Settles O1: the range test on `DIN` stands before the write. -/
theorem fldLoadsCanonicalWord : Obligations.FldLoadsCanonicalWord := by
  unfold Obligations.FldLoadsCanonicalWord
  intro rd s
  refine ⟨encodesAs_of_fields rfl rfl rfl rfl rfl, fun hge => ?_, fun hlt => ?_⟩
  · exact State.complete_bind_errs (State.canonical_error hge) _
  · exact exec_writesF ⟨hlt, rfl, rfl⟩

/-- Settles O2: an immediate below `P` fits a word, so the word written has its value. -/
theorem fsetiEmbedsImmediate : Obligations.FsetiEmbedsImmediate := by
  unfold Obligations.FsetiEmbedsImmediate
  intro rd imm s
  refine ⟨fun hfits => ?_, fun hge => ?_, fun hlt => ?_⟩
  · exact encodesAs_of_fields rfl rfl rfl rfl (immField_toNat (decide_eq_true hfits))
  · exact State.complete_bind_errs (State.canonical_error hge) _
  · obtain ⟨t, ht, hwrites⟩ := exec_writesF (i := .fseti rd imm) ⟨hlt, rfl, rfl⟩
    exact ⟨t, toWord imm, ht, hwrites, toWord_toNat_of_lt hlt⟩

/-- Settles O3: the register read is what is delivered, and the invariant keeps it canonical. -/
theorem fstDeliversElement : Obligations.FstDeliversElement := by
  unfold Obligations.FstDeliversElement
  intro ra s
  refine ⟨encodesAs_of_fields rfl rfl rfl rfl rfl, fun hnone => ?_, fun a ha => ⟨?_, fun hinv => ?_⟩⟩
  · exact State.complete_bind_errs (State.readF_none hnone) _
  · exact exec_answers ⟨ha, rfl⟩
  · exact hinv.registers ra a ha

/-- Settles O4: the source is read before the write, so the two registers may be one. -/
theorem fmovCopiesElement : Obligations.FmovCopiesElement := by
  unfold Obligations.FmovCopiesElement
  intro rd ra s
  refine ⟨encodesAs_of_fields rfl rfl rfl rfl rfl, fun hnone => ?_, fun a ha => ?_⟩
  · exact State.complete_bind_errs (State.readF_none hnone) _
  · exact exec_writesF ⟨a, ha, rfl, rfl⟩

end Sys2Proof.Machine

/-! PROOF. The field of integers modulo a prime above 2: the laws of its operations, their cases and special
values (spec 41_field_arithmetic.md R110 to R114, R122). -/

namespace Sys2Proof.Machine.Field

variable {p a b : Nat}

/-- Two integers below `p` are equal when they are equal in the ring of integers modulo `p`: laws of the ring
become laws of the canonical representatives. -/
theorem eq_of_cast_eq (ha : a < p) (hb : b < p) (h : (a : ZMod p) = b) : a = b :=
  CharP.natCast_injOn_Iio (ZMod p) p ha hb h

/-! ### Laws of the ring (R122) -/

protected theorem add_comm (p a b : Nat) : add p a b = add p b a := by
  rw [add, add, Nat.add_comm]

protected theorem mul_comm (p a b : Nat) : mul p a b = mul p b a := by
  rw [mul, mul, Nat.mul_comm]

protected theorem add_assoc (hp : 0 < p) (a b c : Nat) : add p (add p a b) c = add p a (add p b c) :=
  eq_of_cast_eq (add_lt hp _ _) (add_lt hp _ _) (by simp only [cast_add, add_assoc])

protected theorem mul_assoc (hp : 0 < p) (a b c : Nat) : mul p (mul p a b) c = mul p a (mul p b c) :=
  eq_of_cast_eq (mul_lt hp _ _) (mul_lt hp _ _) (by simp only [cast_mul, mul_assoc])

protected theorem mul_add (hp : 0 < p) (a b c : Nat) :
    mul p a (add p b c) = add p (mul p a b) (mul p a c) :=
  eq_of_cast_eq (mul_lt hp _ _) (add_lt hp _ _) (by simp only [cast_add, cast_mul, mul_add])

protected theorem sub_eq_add_neg (hp : 0 < p) (a b : Nat) : sub p a b = add p a (neg p b) :=
  eq_of_cast_eq (sub_lt hp _ _) (add_lt hp _ _) (by rw [cast_sub hp, cast_add, cast_neg hp, sub_eq_add_neg])

protected theorem add_sub_cancel_right (ha : a < p) (b : Nat) : sub p (add p a b) b = a :=
  have hp : 0 < p := Nat.zero_lt_of_lt ha
  eq_of_cast_eq (sub_lt hp _ _) ha (by rw [cast_sub hp, cast_add, add_sub_cancel_right])

protected theorem add_neg_cancel (hp : 0 < p) (a : Nat) : add p a (neg p a) = 0 :=
  eq_of_cast_eq (add_lt hp _ _) hp (by rw [cast_add, cast_neg hp, add_neg_cancel, Nat.cast_zero])

/-! ### The cases of R110, R111, R113 in one equation each -/

theorem add_eq_ite (ha : a < p) (hb : b < p) :
    add p a b = if a + b < p then a + b else a + b - p := by
  split
  case isTrue h => exact add_eq_of_lt h
  case isFalse h => exact add_eq_of_ge ha hb (Nat.le_of_not_lt h)

/-- The remainder of a difference is no negative integer, so it is a natural number as it stands (R12). -/
theorem sub_toInt (hp : 0 < p) (a b : Nat) : (sub p a b : Int) = ((a : Int) - b) % p :=
  Int.toNat_of_nonneg (Int.emod_nonneg _ (by omega))

theorem sub_eq_ite (ha : a < p) (hb : b < p) :
    (sub p a b : Int) = if b ≤ a then (a : Int) - b else a - b + p := by
  split
  case isTrue h =>
    rw [sub_eq_of_ge ha h]
    omega
  case isFalse h =>
    rw [sub_eq_of_lt hb (Nat.lt_of_not_le h)]
    omega

theorem neg_eq_ite (ha : a < p) : neg p a = if a = 0 then 0 else p - a := by
  have hp : 0 < p := Nat.zero_lt_of_lt ha
  split
  case isTrue h => rw [neg, h, sub_eq_of_ge hp le_rfl]
  case isFalse h => rw [neg, sub_eq_of_lt ha (Nat.pos_of_ne_zero h), Nat.zero_add]

/-! ### Special values of the product (R112) -/

protected theorem mul_one (ha : a < p) : mul p a 1 = a := by
  rw [mul, Nat.mul_one, Nat.mod_eq_of_lt ha]

protected theorem mul_eq_zero_of_eq_zero (h : a = 0 ∨ b = 0) : mul p a b = 0 := by
  rw [mul, Nat.mul_eq_zero.mpr h, Nat.zero_mod]

/-- `p - 1` is `-1` modulo `p`. -/
theorem cast_eq_neg_one (h : a + 1 = p) : (a : ZMod p) = -1 := by
  have hsum : (a : ZMod p) + 1 = 0 := by
    rw [← Nat.cast_succ, Nat.succ_eq_add_one, h, ZMod.natCast_self]
  exact eq_neg_of_add_eq_zero_left hsum

theorem mul_eq_one_of_add_one_eq (hp : 1 < p) (ha : a + 1 = p) (hb : b + 1 = p) : mul p a b = 1 := by
  refine eq_of_cast_eq (mul_lt (by omega) _ _) hp ?_
  rw [cast_mul, cast_eq_neg_one ha, cast_eq_neg_one hb, neg_one_mul, neg_neg, Nat.cast_one]

/-! ### The inverse (R114) -/

section
variable (hp : p.Prime) (h2 : 2 < p) (hw : p < 2 ^ 128)
include hp h2 hw

theorem self_mul_inv (ha : a ≠ 0) (hap : a < p) : mul p a (inv p a) = 1 := by
  rw [Field.mul_comm, mul_inv_self hp h2 hw ha hap]

/-- The inverse is not 0, since a product with 0 is not 1. -/
theorem inv_pos (ha : a ≠ 0) (hap : a < p) : 1 ≤ inv p a := by
  refine Nat.one_le_iff_ne_zero.mpr fun hzero => ?_
  have hone := self_mul_inv hp h2 hw ha hap
  rw [Field.mul_eq_zero_of_eq_zero (.inr hzero)] at hone
  exact absurd hone Nat.zero_ne_one

theorem eq_inv_of_mul_eq_one {d : Nat} (hd : d < p) (h : mul p a d = 1) : d = inv p a := by
  have := Fact.mk hp
  have hcast : (a : ZMod p) * d = 1 := by rw [← cast_mul, h, Nat.cast_one]
  refine eq_of_cast_eq hd (inv_lt hp.pos a) ?_
  rw [cast_inv hp h2 hw, eq_inv_of_mul_eq_one_right hcast]

end

/-- Settles O48: each law is the law of the ring modulo `P`, brought down to canonical representatives. -/
theorem fieldLaws : Obligations.FieldLaws := by
  unfold Obligations.FieldLaws
  intro P a b c hP ha _ _ p
  have hp : 0 < p := hP.1.pos
  refine ⟨add_lt hp a b, mul_lt hp a b, Field.add_comm p a b, Field.mul_comm p a b,
    Field.add_assoc hp a b c, Field.mul_assoc hp a b c, fun ha0 => ?_, Field.sub_eq_add_neg hp a b,
    Field.mul_add hp a b c, Field.add_sub_cancel_right ha b⟩
  exact mul_inv_self hP.1 (lt_trans (by decide) hP.2) P.isLt ha0 ha

end Sys2Proof.Machine.Field

/-! PROOF. The commands of field arithmetic: FADD, FSUB, FMUL, FNEG, FINV, FEQ, and two sequences of them (spec
41_field_arithmetic.md R116 to R122; 45_host_protocols.md R183, R184). -/

namespace Sys2Proof.Machine

open Sys2Proof.Safety

variable {s : State} {i : Instr} {rd : Reg}

/-- A canonical result is written as the word of its value. -/
theorem exec_writesF_toWord {n : Nat} (h : Performs s (s.writeF rd (toWord n)) 0#128 i)
    (hn : n < s.P.toNat) : ∃ t c, exec i s = .next t ∧ WritesF s t rd c ∧ c.toNat = n := by
  obtain ⟨t, ht, hwrites⟩ := exec_writesF h
  exact ⟨t, toWord n, ht, hwrites, toWord_toNat_of_lt hn⟩

/-- Settles O5: both sources are read before the write, and their sum is reduced as an exact integer. -/
theorem faddAddsModuloP : Obligations.FaddAddsModuloP := by
  unfold Obligations.FaddAddsModuloP
  intro rd ra rb s
  refine ⟨encodesAs_of_fields rfl rfl rfl rfl rfl, fun hnone => ?_, fun a b hinv ha hb => ?_⟩
  · exact State.complete_bind_errs (State.readPair_none hnone) _
  · obtain ⟨t, c, ht, hwrites, hc⟩ := exec_writesF_toWord (i := .fadd rd ra rb)
      ⟨a, b, ha, hb, rfl, rfl⟩ (Field.add_lt hinv.pos _ _)
    exact ⟨t, c, ht, hwrites, hc,
      hc.trans (Field.add_eq_ite (hinv.registers ra a ha) (hinv.registers rb b hb))⟩

/-- Settles O6: the difference is reduced as an integer, so one below 0 does not wrap at the word's width. -/
theorem fsubSubtractsModuloP : Obligations.FsubSubtractsModuloP := by
  unfold Obligations.FsubSubtractsModuloP
  intro rd ra rb s
  refine ⟨encodesAs_of_fields rfl rfl rfl rfl rfl, fun hnone => ?_, fun a b hinv ha hb => ?_⟩
  · exact State.complete_bind_errs (State.readPair_none hnone) _
  · obtain ⟨t, c, ht, hwrites, hc⟩ := exec_writesF_toWord (i := .fsub rd ra rb)
      ⟨a, b, ha, hb, rfl, rfl⟩ (Field.sub_lt hinv.pos _ _)
    refine ⟨t, c, ht, hwrites, ?_, ?_⟩ <;> rw [hc]
    · exact Field.sub_toInt hinv.pos _ _
    · exact Field.sub_eq_ite (hinv.registers ra a ha) (hinv.registers rb b hb)

/-- Settles O7: the product is reduced as an exact integer; `P - 1` is `-1` modulo `P`. -/
theorem fmulMultipliesModuloP : Obligations.FmulMultipliesModuloP := by
  unfold Obligations.FmulMultipliesModuloP
  intro rd ra rb s
  refine ⟨encodesAs_of_fields rfl rfl rfl rfl rfl, fun hnone => ?_, fun a b hinv ha hb => ?_⟩
  · exact State.complete_bind_errs (State.readPair_none hnone) _
  · obtain ⟨t, c, ht, hwrites, hc⟩ := exec_writesF_toWord (i := .fmul rd ra rb)
      ⟨a, b, ha, hb, rfl, rfl⟩ (Field.mul_lt hinv.pos _ _)
    refine ⟨t, c, ht, hwrites, hc, fun hzero => ?_, fun hb1 => ?_, fun ha1 => ?_, fun ha' hb' => ?_⟩
    · rw [hc, Field.mul_eq_zero_of_eq_zero hzero]
    · exact BitVec.eq_of_toNat_eq (by rw [hc, hb1, Field.mul_one (hinv.registers ra a ha)])
    · exact BitVec.eq_of_toNat_eq
        (by rw [hc, ha1, Field.mul_comm, Field.mul_one (hinv.registers rb b hb)])
    · rw [hc, Field.mul_eq_one_of_add_one_eq hinv.modulus.1.one_lt ha' hb']

/-- Settles O8: negation is subtraction from 0. -/
theorem fnegNegates : Obligations.FnegNegates := by
  unfold Obligations.FnegNegates
  intro rd ra s
  refine ⟨encodesAs_of_fields rfl rfl rfl rfl rfl, fun hnone => ?_, fun a hinv ha => ?_⟩
  · exact State.complete_bind_errs (State.readF_none hnone) _
  · obtain ⟨t, c, ht, hwrites, hc⟩ := exec_writesF_toWord (i := .fneg rd ra)
      ⟨a, ha, rfl, rfl⟩ (Field.neg_lt hinv.pos _)
    refine ⟨t, c, ht, hwrites, ?_, ?_, ?_⟩ <;> rw [hc]
    · exact Field.sub_toInt hinv.pos 0 _
    · exact Field.neg_eq_ite (hinv.registers ra a ha)
    · exact Field.add_neg_cancel hinv.pos _

/-- Settles O9: the power `a ^ (P - 2)` is the inverse in the field of integers modulo `P`, where inverses are
unique; the test for 0 stands before the write. -/
theorem finvInvertsUniquely : Obligations.FinvInvertsUniquely := by
  unfold Obligations.FinvInvertsUniquely
  intro rd ra s
  refine ⟨encodesAs_of_fields rfl rfl rfl rfl rfl, fun hnone => ?_, fun hzero => ?_, fun a hinv ha ha0 => ?_⟩
  · exact State.complete_bind_errs (State.readF_none hnone) _
  · have hexec : exec (.finv rd ra) s = .next (s.raise .noninvertibleElement) := by
      simp only [exec, execFinv, State.readF_some hzero, bind_ok, raiseIf_pos, bind_error,
        State.complete_error]
    exact ⟨_, hexec, s.raise_errs _⟩
  · obtain ⟨t, c, ht, hwrites, hc⟩ := exec_writesF_toWord (i := .finv rd ra)
      ⟨a, ha, ha0, rfl, rfl⟩ (Field.inv_lt hinv.pos _)
    have hlt := hinv.registers ra a ha
    have hne : a.toNat ≠ 0 := BitVec.toNat_ne_iff_ne.mpr ha0
    refine ⟨t, c, ht, hwrites, ?_, ?_, ?_, fun d hd hone => ?_⟩ <;> rw [hc]
    · exact Field.inv_pos hinv.modulus.1 hinv.two_lt s.P.isLt hne hlt
    · exact Field.inv_lt hinv.pos _
    · exact Field.self_mul_inv hinv.modulus.1 hinv.two_lt s.P.isLt hne hlt
    · exact Field.eq_inv_of_mul_eq_one hinv.modulus.1 hinv.two_lt s.P.isLt hd hone

/-- A truth value on `DOUT` is 1 or 0 (R121). -/
theorem boolWord_toNat (b : Bool) : (boolWord b).toNat = if b then 1 else 0 := by
  cases b <;> rfl

/-- FEQ refuses an unwritten source, whichever of the two it is (R121). -/
theorem exec_feq_errs {ra rb : Reg} (h : s.F[ra] = none ∨ s.F[rb] = none) :
    ∃ t, exec (.feq ra rb) s = .next t ∧ Errs s t .invalidRepresentation := by
  rcases s.readF_cases ra with ⟨a, ha, hreadA⟩ | ⟨-, hreadA⟩
  · have hreadB := State.readF_none (h.resolve_left (by simp [ha]))
    rw [exec, execFeq, hreadA, bind_ok]
    exact State.complete_bind_errs hreadB _
  · exact State.complete_bind_errs hreadA _

/-- Settles O10: two words are the same word exactly when they denote the same integer. -/
theorem feqComparesElements : Obligations.FeqComparesElements := by
  unfold Obligations.FeqComparesElements
  intro ra rb s
  refine ⟨encodesAs_of_fields rfl rfl rfl rfl rfl, exec_feq_errs, fun a b ha hb => ?_⟩
  obtain ⟨t, ht, hanswers⟩ := exec_answers (i := .feq ra rb) ⟨a, b, ha, hb, rfl, rfl⟩
  refine ⟨t, boolWord (a == b), ht, hanswers, ?_⟩
  simp only [boolWord_toNat, beq_iff_eq, BitVec.toNat_inj]

/-! ### Sequences of two commands -/

/-- Settles O50: the key is still in its register after FADD, and subtracting it undoes the addition. -/
theorem maskThenUnmaskGivesValueBack : Obligations.MaskThenUnmaskGivesValueBack := by
  unfold Obligations.MaskThenUnmaskGivesValueBack
  intro s ra rb rm rd y k hinv hy hk hne
  obtain ⟨t, c, ht, ⟨hmasked, hother, hP, -⟩, hc⟩ := exec_writesF_toWord (i := .fadd rm ra rb)
    ⟨y, k, hy, hk, rfl, rfl⟩ (Field.add_lt hinv.pos _ _)
  have hkey : t.F[rb] = some k := (hother rb hne.symm).trans hk
  obtain ⟨u, v, hu, hwrites, hv⟩ := exec_writesF_toWord (i := .fsub rd rm rb)
    ⟨c, k, hmasked, hkey, rfl, rfl⟩ (Field.sub_lt (hP ▸ hinv.pos) _ _)
  have hvy : v = y :=
    BitVec.eq_of_toNat_eq (by rw [hv, hP, hc, Field.add_sub_cancel_right (hinv.registers ra y hy)])
  exact ⟨t, u, ht, hu, hvy ▸ hwrites⟩

/-- Settles O51: the element is still in its register after FINV, and its inverse times it is 1. -/
theorem inverseTimesElementIsOne : Obligations.InverseTimesElementIsOne := by
  unfold Obligations.InverseTimesElementIsOne
  intro s ra rm rd a hinv ha ha0 hne
  obtain ⟨t, c, ht, ⟨hinverse, hother, hP, -⟩, hc⟩ := exec_writesF_toWord (i := .finv rm ra)
    ⟨a, ha, ha0, rfl, rfl⟩ (Field.inv_lt hinv.pos _)
  have helement : t.F[ra] = some a := (hother ra hne.symm).trans ha
  obtain ⟨u, v, hu, hwrites, hv⟩ := exec_writesF_toWord (i := .fmul rd rm ra)
    ⟨c, a, hinverse, helement, rfl, rfl⟩ (Field.mul_lt (hP ▸ hinv.pos) _ _)
  have hne0 : a.toNat ≠ 0 := BitVec.toNat_ne_iff_ne.mpr ha0
  have hone : Field.mul s.P.toNat (Field.inv s.P.toNat a.toNat) a.toNat = 1 :=
    Field.mul_inv_self hinv.modulus.1 hinv.two_lt s.P.isLt hne0 (hinv.registers ra a ha)
  have hv1 : v = 1#128 := BitVec.eq_of_toNat_eq (by rw [hv, hP, hc, hone]; rfl)
  exact ⟨t, u, ht, hu, hv1 ▸ hwrites⟩

end Sys2Proof.Machine

/-! PROOF. Horner's method is the polynomial, seen on lists of integers and on the coefficients a state holds
(spec 10_state.md R27, R28; 42_polynomial_evaluator.md R131). -/

namespace Sys2Proof.Machine.Field

variable {p : Nat}

/-- One more coefficient raises the power of every earlier one by one and is the new constant term, so Horner's
method is the polynomial with the highest power first (R131). -/
theorem cast_horner (cs : List Nat) (x : Nat) :
    ((horner p cs x : Nat) : ZMod p) =
      ∑ i ∈ Finset.range cs.length, ((cs.getD i 0 : Nat) : ZMod p) * (x : ZMod p) ^ (cs.length - 1 - i) := by
  induction cs using List.reverseRecOn with
  | nil => simp
  | append_singleton cs c ih =>
    rw [cast_horner_concat, ih, Finset.sum_mul, List.length_append, List.length_singleton,
      Finset.sum_range_succ]
    congr 1
    · refine Finset.sum_congr rfl fun i hi => ?_
      have hlt : i < cs.length := Finset.mem_range.mp hi
      have hpow : cs.length + 1 - 1 - i = cs.length - 1 - i + 1 := by omega
      rw [List.getD_append _ _ _ _ hlt, hpow, pow_succ, mul_assoc]
    · simp

/-- At 0 all but the constant term vanishes (R131, R135). -/
theorem horner_concat_zero {c : Nat} (hc : c < p) (cs : List Nat) : horner p (cs ++ [c]) 0 = c := by
  rw [horner_concat, Field.mul_eq_zero_of_eq_zero (.inr rfl), add_eq_of_lt (by omega), Nat.zero_add]

/-- Settles O49: by induction on the coefficients, the last one split off. -/
theorem hornerIsThePolynomial : Obligations.HornerIsThePolynomial := by
  unfold Obligations.HornerIsThePolynomial
  intro p cs x _
  exact ⟨horner_nil x, fun c => horner_concat cs c x, cast_horner cs x, fun c hc => horner_concat_zero hc cs⟩

end Sys2Proof.Machine.Field

namespace Sys2Proof.Safety

open Sys2Proof.Machine

variable {s : State} {c : Nat → Word}

/-- The integers `COEF[0 .. k-1]` in slot order, as the evaluator reads them (R27). -/
def coefList (k : Nat) (c : Nat → Word) : List Nat := (List.range k).map fun i => (c i).toNat

/-- Horner's method over the coefficients of a state is its polynomial (R28, R131). -/
theorem cast_horner_coefList (s : State) (c : Nat → Word) (x : Nat) :
    ((Field.horner s.P.toNat (coefList s.K c) x : Nat) : ZMod s.P.toNat) = polyValue s c x := by
  have hlen : (coefList s.K c).length = s.K := by simp [coefList]
  rw [Field.cast_horner, hlen, polyValue]
  refine Finset.sum_congr rfl fun i hi => ?_
  have hget : (coefList s.K c).getD i 0 = (c i).toNat := by simp [coefList, Finset.mem_range.mp hi]
  rw [hget]

/-- At 0 the polynomial is its coefficient in the last slot (R28). -/
theorem polyValue_zero (hK : s.K ≠ 0) (c : Nat → Word) : polyValue s c 0 = inField s.P (c (s.K - 1)) := by
  rw [polyValue, Finset.sum_eq_single_of_mem (s.K - 1) (Finset.mem_range.mpr (by omega))]
  · rw [Nat.sub_self, pow_zero, mul_one]
  · intro i hi hne
    have hpow : s.K - 1 - i ≠ 0 := by
      have hlt := Finset.mem_range.mp hi
      omega
    rw [zero_pow hpow, mul_zero]

/-- Two canonical words are one word when they are the same element of the field (R37). -/
theorem eq_of_inField_eq {P v w : Word} (hv : v.toNat < P.toNat) (hw : w.toNat < P.toNat)
    (h : inField P v = inField P w) : v = w :=
  BitVec.eq_of_toNat_eq (Field.eq_of_cast_eq hv hw h)

theorem inField_toWord {P : Word} {n : Nat} (hn : n < P.toNat) : inField P (toWord n) = n := by
  rw [inField, toWord_toNat_of_lt hn]

/-- What Horner's method gives is written as a canonical word, the value of the polynomial (R28, R37). -/
theorem Inv.horner_value (h : Inv s) (c : Nat → Word) (x : Nat) :
    (toWord (Field.horner s.P.toNat (coefList s.K c) x)).toNat < s.P.toNat ∧
      inField s.P (toWord (Field.horner s.P.toNat (coefList s.K c) x)) = polyValue s c x := by
  have hlt : Field.horner s.P.toNat (coefList s.K c) x < s.P.toNat := Field.horner_lt h.pos _ _
  exact ⟨toWord_canonical hlt, (inField_toWord hlt).trans (cast_horner_coefList s c x)⟩

theorem Inv.count_le (h : Inv s) : s.K ≤ 16 := by
  rcases h.count with hzero | ⟨-, hle⟩
  · omega
  · exact hle

/-- The constant term of a complete polynomial is canonical (R37). -/
theorem Inv.constantTerm_lt (h : Inv s) (hK : s.K ≠ 0) (hc : Holds s c) :
    (c (s.K - 1)).toNat < s.P.toNat := by
  have hle := h.count_le
  exact h.coefficients ⟨s.K - 1, by omega⟩ _ (hc ⟨s.K - 1, by omega⟩ (by simp only; omega))

/-- A complete polynomial is read as the list of its coefficients (R27). -/
theorem Inv.exists_coefficients (h : Inv s) (hc : Holds s c) :
    ∃ vs : List Word, s.COEF.toList.take s.K = vs.map some ∧ vs.map BitVec.toNat = coefList s.K c := by
  have hread := State.readPolynomial_of_holds h.count_le hc
  rcases s.readPolynomial_cases with ⟨vs, hvs, hok⟩ | ⟨-, herr⟩
  · exact ⟨vs, hvs, Except.ok.inj (hok.symm.trans hread)⟩
  · exact nomatch herr.symm.trans hread

end Sys2Proof.Safety

/-! PROOF. Interpolation at zero gives back the constant term of the polynomial the shares lie on (spec
43_lagrange_interpolation.md R154, R159). -/

namespace Sys2Proof.Safety

open Sys2Proof.Machine

variable {s : State} {P : Word} {l : List Share}

/-- The engine's sum is Lagrange's interpolation polynomial at 0, and through enough points of a polynomial there
is no other (R154). -/
theorem interpolationAtZero_eq_eval (hP : P.toNat.Prime) {f : Polynomial (ZMod P.toNat)}
    (hx : Function.Injective (xOf P l)) (hdeg : f.degree < l.length)
    (hy : ∀ i, f.eval (xOf P l i) = yOf P l i) : interpolationAtZero P l = f.eval 0 := by
  have := Fact.mk hP
  have hcard : f.degree < (Finset.univ : Finset (Fin l.length)).card := by
    rwa [Finset.card_univ, Fintype.card_fin]
  rw [Lagrange.eq_interpolate_of_eval_eq (yOf P l) hx.injOn hcard fun i _ => hy i,
    Lagrange.interpolate_apply, Polynomial.eval_finsetSum, interpolationAtZero]
  refine Finset.sum_congr rfl fun i _ => ?_
  rw [Polynomial.eval_mul, Polynomial.eval_C, Lagrange.basis, Polynomial.eval_prod, productD, productN,
    mul_assoc, ← Finset.prod_inv_distrib, ← Finset.prod_mul_distrib]
  congr 1
  refine Finset.prod_congr rfl fun j _ => ?_
  rw [Lagrange.basisDivisor, Polynomial.eval_mul, Polynomial.eval_C, Polynomial.eval_sub, Polynomial.eval_X,
    Polynomial.eval_C, zero_sub, mul_comm]

/-- Distinct canonical abscissas are distinct elements of the field (R37, R158). -/
theorem Inv.xOf_injective (h : Inv s) (hnodup : s.SHX.Nodup) : Function.Injective (xOf s.P s.SH) := by
  intro i j hij
  have hlt : ∀ k : Fin s.SH.length, (s.SH[k]).x.toNat < s.P.toNat := fun k =>
    (h.shares _ (List.getElem_mem k.isLt)).1
  have hword : (s.SH[i]).x = (s.SH[j]).x := eq_of_inField_eq (hlt i) (hlt j) hij
  have hslot : ∀ k : Fin s.SH.length, k.val < s.SHX.length := fun k => by simp [State.SHX]
  have hget : s.SHX[i.val]'(hslot i) = s.SHX[j.val]'(hslot j) := by simpa [State.SHX] using hword
  exact Fin.ext (hnodup.getElem_inj_iff.mp hget)

/-- `f` of R28 as a polynomial over the field. -/
noncomputable def toPolynomial (s : State) (c : Nat → Word) : Polynomial (ZMod s.P.toNat) :=
  ∑ i ∈ Finset.range s.K, Polynomial.C (inField s.P (c i)) * Polynomial.X ^ (s.K - 1 - i)

theorem eval_toPolynomial (s : State) (c : Nat → Word) (x : ZMod s.P.toNat) :
    (toPolynomial s c).eval x = polyValue s c x := by
  simp [toPolynomial, polyValue, Polynomial.eval_finsetSum]

/-- `K` coefficients make a polynomial of a degree below `K` (R28). -/
theorem degree_toPolynomial_lt (hK : s.K ≠ 0) (c : Nat → Word) : (toPolynomial s c).degree < s.K := by
  refine (Polynomial.degree_sum_le _ _).trans_lt ((Finset.sup_lt_iff (WithBot.bot_lt_coe _)).mpr fun i _ => ?_)
  refine (Polynomial.degree_C_mul_X_pow_le _ _).trans_lt ?_
  exact_mod_cast (by omega : s.K - 1 - i < s.K)

/-- `K` shares with distinct abscissas on the polynomial determine its constant term (R159). -/
theorem Inv.interpolationAtZero_eq (h : Inv s) {c : Nat → Word} (hK : s.K ≠ 0) (hn : s.NSH = s.K)
    (hnodup : s.SHX.Nodup) (hon : ∀ sh ∈ s.SH, inField s.P sh.y = polyValue s c (inField s.P sh.x)) :
    interpolationAtZero s.P s.SH = inField s.P (c (s.K - 1)) := by
  have hdeg : (toPolynomial s c).degree < s.SH.length := by
    rw [← State.NSH_eq, hn]
    exact degree_toPolynomial_lt hK c
  rw [interpolationAtZero_eq_eval h.modulus.1 (h.xOf_injective hnodup) hdeg, eval_toPolynomial,
    polyValue_zero hK]
  intro i
  rw [eval_toPolynomial]
  exact (hon _ (List.getElem_mem i.isLt)).symm

end Sys2Proof.Safety

/-! PROOF. The commands of the polynomial evaluator: PSETK, PLDC, PRDC, PEVAL, PSHARE, and the round trip with
LRECON (spec 42_polynomial_evaluator.md R132 to R137). -/

namespace Sys2Proof.Machine

open Sys2Proof.Safety

variable {s : State} {rd ra : Reg} {imm : Nat} {c : Nat → Word}

/-- A command that passes a check or read ends in the error of what comes after it. -/
theorem State.complete_bind_errs_of_ok {α : Type} {x : Except ErrorKind α} {a : α} {k : ErrorKind}
    (hx : x = .ok a) {f : α → Except ErrorKind Effect}
    (h : ∃ t, s.complete (f a) = .next t ∧ Errs s t k) : ∃ t, s.complete (x >>= f) = .next t ∧ Errs s t k := by
  subst hx
  exact h

/-! ### PSETK -/

/-- Settles O11: the range test and the threshold test stand before the write. -/
theorem psetkBeginsPolynomial : Obligations.PsetkBeginsPolynomial := by
  unfold Obligations.PsetkBeginsPolynomial
  intro imm s
  refine ⟨fun hfits => ?_, fun hgt => ?_, fun hlow => ?_, fun hlow hhigh => ?_⟩
  · exact encodesAs_of_fields rfl rfl rfl rfl (immField_toNat (decide_eq_true hfits))
  · exact State.complete_bind_errs (raiseIf_pos hgt _) _
  · have hrange : ¬ Config.kmax < imm := by rw [Config.kmax]; omega
    exact State.complete_bind_errs_of_ok (raiseIf_neg hrange _) <|
      State.complete_bind_errs (raiseIf_pos hlow _) _
  · have hperforms : Performs s (s.setK imm) 0#128 (.psetk imm) := ⟨hlow, hhigh, rfl, rfl⟩
    exact ⟨_, exec_of_performs hperforms, ⟨rfl, rfl, rfl, ⟨rfl, rfl⟩, rfl⟩, rfl, fun i => by simp⟩

/-! ### PLDC and PRDC -/

theorem State.coefSlot_error_of_ge (h : 16 ≤ imm) : s.coefSlot imm = .error .illegalCommand := by
  rw [State.coefSlot, Config.kmax, raiseIf_pos h, bind_error]

theorem State.coefSlot_error_of_count_zero (h : imm < 16) (hK : s.K = 0) :
    s.coefSlot imm = .error .degenerateThreshold := by
  rw [State.coefSlot, Config.kmax, raiseIf_neg (Nat.not_le.mpr h), bind_ok, raiseIf_pos hK, bind_error]

theorem State.coefSlot_error_of_count_le (h : imm < 16) (hK : s.K ≠ 0) (hle : s.K ≤ imm) :
    s.coefSlot imm = .error .illegalCommand := by
  rw [State.coefSlot, Config.kmax, raiseIf_neg (Nat.not_le.mpr h), bind_ok, raiseIf_neg hK, bind_ok, raiseIf_pos hle]

theorem State.writeCoef_get (s : State) (i : Nat) (v : Word) (j : Fin 16) :
    (s.writeCoef i v).COEF[j] = if j.val = i then some v else s.COEF[j] := by
  split
  case isTrue h =>
    subst h
    exact s.writeCoef_get_self j v
  case isFalse h => exact s.writeCoef_get_other v h

/-- Settles O12: the three checks on the slot, the read of the source, then the write. -/
theorem pldcLoadsCoefficient : Obligations.PldcLoadsCoefficient := by
  unfold Obligations.PldcLoadsCoefficient
  intro imm ra s
  refine ⟨fun hfits => ?_, fun hge => ?_, fun hlt hK => ?_, fun hlt hK hle => ?_, fun hlt hslot hnone => ?_,
    fun a hlt hslot ha => ?_⟩
  · exact encodesAs_of_fields rfl rfl rfl rfl (immField_toNat (decide_eq_true hfits))
  · exact State.complete_bind_errs (State.coefSlot_error_of_ge hge) _
  · exact State.complete_bind_errs (State.coefSlot_error_of_count_zero hlt hK) _
  · exact State.complete_bind_errs (State.coefSlot_error_of_count_le hlt hK hle) _
  · exact State.complete_bind_errs_of_ok (State.coefSlot_ok hlt (Nat.ne_zero_of_lt hslot) hslot) <|
      State.complete_bind_errs (State.readF_none hnone) _
  · have hperforms : Performs s (s.writeCoef imm a) 0#128 (.pldc imm ra) :=
      ⟨a, hlt, Nat.ne_zero_of_lt hslot, hslot, ha, rfl, rfl⟩
    exact ⟨_, exec_of_performs hperforms, ⟨rfl, rfl, rfl, ⟨rfl, rfl⟩, rfl⟩, rfl, s.writeCoef_get imm a⟩

theorem State.readCoef_none {i : Fin 16} (h : s.COEF[i] = none) :
    s.readCoef i.val = .error .invalidRepresentation := by
  rw [State.readCoef_eq, h, valueOf_none]

/-- Settles O13: the three checks on the slot, the read of the slot, then the write. -/
theorem prdcReadsCoefficient : Obligations.PrdcReadsCoefficient := by
  unfold Obligations.PrdcReadsCoefficient
  intro rd imm s
  refine ⟨fun hfits => ?_, fun hge => ?_, fun hlt hK => ?_, fun hlt hK hle => ?_, ?_, ?_⟩
  · exact encodesAs_of_fields rfl rfl rfl rfl (immField_toNat (decide_eq_true hfits))
  · exact State.complete_bind_errs (State.coefSlot_error_of_ge hge) _
  · exact State.complete_bind_errs (State.coefSlot_error_of_count_zero hlt hK) _
  · exact State.complete_bind_errs (State.coefSlot_error_of_count_le hlt hK hle) _
  · rintro i rfl hslot hnone
    exact State.complete_bind_errs_of_ok (State.coefSlot_ok i.isLt (Nat.ne_zero_of_lt hslot) hslot) <|
      State.complete_bind_errs (State.readCoef_none hnone) _
  · rintro i c rfl hslot hc
    exact exec_writesF ⟨i, c, rfl, Nat.ne_zero_of_lt hslot, hslot, hc, rfl, rfl⟩

/-! ### PEVAL -/

/-- A polynomial with an unwritten slot is not read (R135, R136). -/
theorem State.readPolynomial_error (h : Incomplete s) : s.readPolynomial = .error .invalidRepresentation := by
  rcases s.readPolynomial_cases with ⟨vs, hvs, -⟩ | ⟨-, herr⟩
  · have hmem := s.none_mem_take.mpr h
    simp [hvs] at hmem
  · exact herr

/-- PEVAL refuses an unwritten source or slot, whichever it is (R135). -/
theorem exec_peval_errs (hK : s.K ≠ 0) (h : s.F[ra] = none ∨ Incomplete s) :
    ∃ t, exec (.peval rd ra) s = .next t ∧ Errs s t .invalidRepresentation := by
  refine State.complete_bind_errs_of_ok (raiseIf_neg hK _) ?_
  rcases s.readF_cases ra with ⟨x, hx, hread⟩ | ⟨-, hread⟩
  · have hincomplete : Incomplete s := h.resolve_left (by simp [hx])
    exact State.complete_bind_errs_of_ok hread <|
      State.complete_bind_errs (State.readPolynomial_error hincomplete) _
  · exact State.complete_bind_errs hread _

/-- PEVAL of a complete polynomial writes what Horner's method gives over its coefficients (R135). -/
theorem performs_peval {x : Word} (hinv : Inv s) (hK : s.K ≠ 0) (hx : s.F[ra] = some x) (hc : Holds s c) :
    Performs s (s.writeF rd (toWord (Field.horner s.P.toNat (coefList s.K c) x.toNat))) 0#128
      (.peval rd ra) := by
  obtain ⟨vs, hvs, hcoefs⟩ := hinv.exists_coefficients hc
  exact ⟨x, vs, hK, hx, hvs, by rw [hcoefs], rfl⟩

/-- PEVAL of a complete polynomial writes its value, the word of a field element (R28, R135). -/
theorem exec_peval_writesF {x : Word} (rd : Reg) (hinv : Inv s) (hK : s.K ≠ 0) (hx : s.F[ra] = some x)
    (hc : Holds s c) : ∃ t v, exec (.peval rd ra) s = .next t ∧ WritesF s t rd v ∧ v.toNat < s.P.toNat ∧
      inField s.P v = polyValue s c (inField s.P x) := by
  obtain ⟨t, ht, hwrites⟩ := exec_writesF (performs_peval (rd := rd) hinv hK hx hc)
  exact ⟨t, _, ht, hwrites, hinv.horner_value c x.toNat⟩

/-- The canonical word of the polynomial's value at 0 is the coefficient in the last slot (R28). -/
theorem eq_constantTerm {v : Word} (hinv : Inv s) (hK : s.K ≠ 0) (hc : Holds s c) (hv : v.toNat < s.P.toNat)
    (hval : inField s.P v = polyValue s c 0) : v = c (s.K - 1) :=
  eq_of_inField_eq hv (hinv.constantTerm_lt hK hc) (hval.trans (polyValue_zero hK c))

theorem inField_zero (P : Word) : inField P 0#128 = 0 := Nat.cast_zero

/-- Settles O14: Horner's method over the coefficients read is the polynomial of R28 in the field. -/
theorem pevalEvaluatesPolynomial : Obligations.PevalEvaluatesPolynomial := by
  unfold Obligations.PevalEvaluatesPolynomial
  intro rd ra s
  refine ⟨encodesAs_of_fields rfl rfl rfl rfl rfl, fun hK => ?_, exec_peval_errs,
    fun x c hinv hK hx hc => ?_⟩
  · exact State.complete_bind_errs (raiseIf_pos hK _) _
  · obtain ⟨t, v, ht, hwrites, hv, hval⟩ := exec_peval_writesF rd hinv hK hx hc
    refine ⟨t, v, ht, hwrites, hv, hval, ?_⟩
    rintro rfl
    exact eq_constantTerm hinv hK hc hv (by rw [hval, inField_zero])

/-! ### PSHARE -/

section
variable (p : Nat) (coefs : List Nat)

@[simp] theorem length_sharesUpTo (n : Nat) : (sharesUpTo p coefs n).length = n := by
  simp [sharesUpTo]

theorem sharesUpTo_getElem? {n i : Nat} (hi : i < n) :
    (sharesUpTo p coefs n)[i]? = some (shareAt p coefs (i + 1)) := by
  simp [sharesUpTo, hi]

/-- The abscissas of the shares generated are the words of 1 to `n` (R136). -/
theorem map_x_sharesUpTo (n : Nat) :
    (sharesUpTo p coefs n).map Share.x = (List.range n).map fun i => toWord (i + 1) := by
  simp [sharesUpTo, shareAt]

/-- The words of 1 to `n` are nonzero and distinct, as long as they do not wrap (R136). -/
theorem not_badAbscissas_sharesUpTo {n : Nat} (hn : n < 2 ^ 128) :
    ¬ badAbscissas ((sharesUpTo p coefs n).map Share.x) := by
  have hval : ∀ i ∈ List.range n, (toWord (i + 1)).toNat = i + 1 := fun i hi =>
    toWord_toNat (lt_of_le_of_lt (List.mem_range.mp hi) hn)
  rw [map_x_sharesUpTo, not_or, not_not]
  constructor
  · intro hzero
    obtain ⟨i, hi, hword⟩ := List.mem_map.mp hzero
    have := hval i hi
    simp [hword] at this
  · refine List.Nodup.map_on (fun i hi j hj hword => ?_) List.nodup_range
    have hnat := congrArg BitVec.toNat hword
    rw [hval i hi, hval j hj] at hnat
    exact Nat.succ_inj.mp hnat

end

/-- PSHARE of a complete polynomial replaces the share list by the shares at 1 to `imm` (R136). -/
theorem performs_pshare (hinv : Inv s) (himm : imm ≠ 0) (hle : imm ≤ s.K) (hc : Holds s c) :
    Performs s (s.setShares (sharesUpTo s.P.toNat (coefList s.K c) imm)) 0#128 (.pshare imm) := by
  obtain ⟨vs, hvs, hcoefs⟩ := hinv.exists_coefficients hc
  exact ⟨vs, hle.trans hinv.count_le, by omega, himm, hle, hvs, by rw [hcoefs], rfl⟩

/-- An abscissa PSHARE generates is below `P`, for `P` is above `KMAX` (R7, R136). -/
theorem abscissa_lt {i : Nat} (hinv : Inv s) (hi : i < s.K) : i + 1 < s.P.toNat :=
  (Nat.succ_le_of_lt hi).trans_lt (hinv.count_le.trans_lt hinv.sixteen_lt)

/-- The abscissa of a generated share is the integer it is generated at. -/
theorem shareAt_x_toNat {i : Nat} (hinv : Inv s) (hi : i < s.K) (coefs : List Nat) :
    (shareAt s.P.toNat coefs (i + 1)).x.toNat = i + 1 :=
  toWord_toNat_of_lt (abscissa_lt hinv hi)

theorem not_badAbscissas_of_le_count (hinv : Inv s) (hle : imm ≤ s.K) (coefs : List Nat) :
    ¬ badAbscissas ((sharesUpTo s.P.toNat coefs imm).map Share.x) :=
  not_badAbscissas_sharesUpTo _ _ ((hle.trans hinv.count_le).trans_lt (by norm_num))

/-- Settles O15: the four checks in order, then the shares at 1 to `imm`, at most sixteen, so below `P`. -/
theorem pshareGeneratesShares : Obligations.PshareGeneratesShares := by
  unfold Obligations.PshareGeneratesShares
  intro imm s
  refine ⟨fun hfits => ?_, fun hgt => ?_, fun hrange hK => ?_, fun hrange hK hcount => ?_,
    fun hrange himm hle hincomplete => ?_, fun c hinv himm hle hc => ?_⟩
  · exact encodesAs_of_fields rfl rfl rfl rfl (immField_toNat (decide_eq_true hfits))
  · exact State.complete_bind_errs (raiseIf_pos hgt _) _
  · exact State.complete_bind_errs_of_ok (raiseIf_neg (Nat.not_lt.mpr hrange) _) <|
      State.complete_bind_errs (raiseIf_pos hK _) _
  · exact State.complete_bind_errs_of_ok (raiseIf_neg (Nat.not_lt.mpr hrange) _) <|
      State.complete_bind_errs_of_ok (raiseIf_neg hK _) <|
      State.complete_bind_errs (raiseIf_pos hcount _) _
  · have hK : s.K ≠ 0 := by omega
    have hcount : ¬ (imm = 0 ∨ s.K < imm) := by omega
    exact State.complete_bind_errs_of_ok (raiseIf_neg (Nat.not_lt.mpr hrange) _) <|
      State.complete_bind_errs_of_ok (raiseIf_neg hK _) <|
      State.complete_bind_errs_of_ok (raiseIf_neg hcount _) <|
      State.complete_bind_errs (State.readPolynomial_error hincomplete) _
  · refine ⟨_, exec_of_performs (performs_pshare hinv himm hle hc), ⟨rfl, rfl, rfl, rfl, ⟨rfl, rfl⟩, rfl⟩,
      length_sharesUpTo _ _ imm, not_badAbscissas_of_le_count hinv hle _, fun i hi => ?_⟩
    exact ⟨_, sharesUpTo_getElem? _ _ hi, shareAt_x_toNat hinv (hi.trans_le hle) _,
      hinv.horner_value c (i + 1)⟩

/-! ### The round trip -/

/-- LRECON of `K` good shares on a polynomial writes its constant term (R155, R159). -/
theorem exec_lrecon_writesF (rd : Reg) (hinv : Inv s) (hK : s.K ≠ 0) (hn : s.NSH = s.K)
    (hgood : ¬ badAbscissas s.SHX) (hlt : (c (s.K - 1)).toNat < s.P.toNat)
    (hon : ∀ sh ∈ s.SH, inField s.P sh.y = polyValue s c (inField s.P sh.x)) :
    ∃ t, exec (.lrecon rd) s = .next t ∧ WritesF s t rd (c (s.K - 1)) := by
  have hnodup : s.SHX.Nodup := not_not.mp (not_or.mp hgood).2
  have hresult : Field.lagrange0 s.P.toNat (s.SH.map Share.toPair) < s.P.toNat :=
    Field.lagrange0_lt hinv.pos _
  have hword : toWord (Field.lagrange0 s.P.toNat (s.SH.map Share.toPair)) = c (s.K - 1) := by
    refine eq_of_inField_eq (toWord_canonical hresult) hlt ?_
    rw [inField_toWord hresult, hinv.cast_lagrange0, hinv.interpolationAtZero_eq hK hn hnodup hon]
  exact exec_writesF ⟨hK, hn, hgood, by rw [hword], rfl⟩

/-- Every share PSHARE generates lies on the polynomial (R136). -/
theorem sharesUpTo_on_polynomial (hinv : Inv s) (hle : imm ≤ s.K) (c : Nat → Word) :
    ∀ sh ∈ sharesUpTo s.P.toNat (coefList s.K c) imm,
      inField s.P sh.y = polyValue s c (inField s.P sh.x) := by
  intro sh hsh
  obtain ⟨i, hi, rfl⟩ := List.mem_map.mp hsh
  have hlt : i < s.K := (List.mem_range.mp hi).trans_le hle
  rw [inField, inField, shareAt_x_toNat hinv hlt]
  exact (hinv.horner_value c (i + 1)).2

/-- PSHARE leaves `K` and `P` as they are, so its shares are read by LRECON as points of the same polynomial. -/
theorem exec_pshare_then_lrecon (rd : Reg) (hinv : Inv s) (hK : s.K ≠ 0) (hc : Holds s c) :
    ∃ t u, exec (.pshare s.K) s = .next t ∧ exec (.lrecon rd) t = .next u ∧ WritesF t u rd (c (s.K - 1)) := by
  have hperforms := performs_pshare hinv hK le_rfl hc
  obtain ⟨u, hu, hwrites⟩ := exec_lrecon_writesF (c := c) rd ((hinv.performs hperforms).respond 0#128) hK
    (length_sharesUpTo _ _ s.K) (not_badAbscissas_of_le_count hinv le_rfl _) (hinv.constantTerm_lt hK hc)
    (sharesUpTo_on_polynomial hinv le_rfl c)
  exact ⟨_, u, exec_of_performs hperforms, hu, hwrites⟩

/-- Settles O43: PEVAL and PSHARE both write what Horner's method gives over the same coefficients, and `K` of its
points determine the polynomial. -/
theorem shareAndReconstructRoundTrip : Obligations.ShareAndReconstructRoundTrip := by
  unfold Obligations.ShareAndReconstructRoundTrip
  intro s c hinv hK hc
  refine ⟨fun rd ra hzero => ?_, fun n hpos hle => ?_, fun rd => exec_pshare_then_lrecon rd hinv hK hc⟩
  · obtain ⟨t, v, ht, hwrites, hv, hval⟩ := exec_peval_writesF rd hinv hK hzero hc
    rw [inField_zero] at hval
    exact ⟨t, ht, eq_constantTerm hinv hK hc hv hval ▸ hwrites⟩
  · refine ⟨_, exec_of_performs (performs_pshare hinv (Nat.one_le_iff_ne_zero.mp hpos) hle hc),
      length_sharesUpTo _ _ n, fun i rd ra hi hx => ?_⟩
    obtain ⟨u, hu, hwritten, -⟩ := exec_writesF (performs_peval (rd := rd) hinv hK hx hc)
    have habscissa : (BitVec.ofNat 128 (i + 1)).toNat = i + 1 :=
      toWord_toNat_of_lt (abscissa_lt hinv (hi.trans_le hle))
    rw [habscissa] at hwritten
    exact ⟨u, _, hu, sharesUpTo_getElem? _ _ hi, hwritten⟩

end Sys2Proof.Machine

/-! PROOF. The share memory: SPUSH, SRDX, SRDY (spec 43_lagrange_interpolation.md R151 to R153). -/

namespace Sys2Proof.Machine

open Sys2Proof.Safety

variable {s : State} {rd ra rb : Reg} {imm : Nat}

/-! ### SPUSH -/

/-- A command that reads two registers refuses an unwritten one, whichever it is (R202). -/
theorem State.complete_read_two_errs (h : s.F[ra] = none ∨ s.F[rb] = none)
    (f : Word → Word → Except ErrorKind Effect) :
    ∃ t, s.complete (s.readF ra >>= fun a => s.readF rb >>= f a) = .next t ∧
      Errs s t .invalidRepresentation := by
  rcases s.readF_cases ra with ⟨a, ha, hread⟩ | ⟨-, hread⟩
  · have hb : s.F[rb] = none := h.resolve_left (by simp [ha])
    exact State.complete_bind_errs_of_ok hread <| State.complete_bind_errs (State.readF_none hb) _
  · exact State.complete_bind_errs hread _

/-- The share pushed stands in the first slot after the old ones (R151). -/
theorem State.pushShare_SH_getElem?_NSH (s : State) (x y : Word) :
    (s.pushShare x y).SH[s.NSH]? = some ⟨x, y⟩ :=
  List.getElem?_concat_length

theorem State.pushShare_SH_getElem?_of_lt {i : Nat} (h : i < s.NSH) (x y : Word) :
    (s.pushShare x y).SH[i]? = s.SH[i]? :=
  List.getElem?_append_left h

/-- Settles O16: the capacity test and the two reads stand before the push. -/
theorem spushAppendsShare : Obligations.SpushAppendsShare := by
  unfold Obligations.SpushAppendsShare
  intro ra rb s
  refine ⟨encodesAs_of_fields rfl rfl rfl rfl rfl, fun hfull => ?_, fun hroom hnone => ?_,
    fun x y hroom hx hy => ?_⟩
  · exact State.complete_bind_errs (raiseIf_pos hfull _) _
  · exact State.complete_bind_errs_of_ok (raiseIf_neg hroom _) <| State.complete_read_two_errs hnone _
  · have hperforms : Performs s (s.pushShare x y) 0#128 (.spush ra rb) := ⟨x, y, hroom, hx, hy, rfl, rfl⟩
    exact ⟨_, exec_of_performs hperforms, ⟨rfl, rfl, rfl, rfl, ⟨rfl, rfl⟩, rfl⟩, s.pushShare_NSH x y,
      s.pushShare_SH_getElem?_NSH x y, fun i hi => State.pushShare_SH_getElem?_of_lt hi x y⟩

/-! ### SRDX and SRDY -/

/-- A slot outside the capacity or the share list is refused (R152, R153). -/
theorem State.shareSlot_error (h : 16 ≤ imm ∨ s.NSH ≤ imm) : s.shareSlot imm = .error .illegalCommand := by
  rw [State.shareSlot, raiseIf_bind]
  split
  case isTrue => rfl
  case isFalse hlt => exact State.readShare_none (h.resolve_left hlt)

/-- Settles O17: the checks on the slot stand before the write of its abscissa. -/
theorem srdxReadsAbscissa : Obligations.SrdxReadsAbscissa := by
  unfold Obligations.SrdxReadsAbscissa
  intro rd imm s
  refine ⟨fun hfits => ?_, fun hout => ?_, fun sh hlt hsh => ?_⟩
  · exact encodesAs_of_fields rfl rfl rfl rfl (immField_toNat (decide_eq_true hfits))
  · exact State.complete_bind_errs (State.shareSlot_error hout) _
  · exact exec_writesF ⟨sh, hlt, hsh, rfl, rfl⟩

/-- Settles O18: the checks on the slot stand before the write of its value. -/
theorem srdyReadsOrdinate : Obligations.SrdyReadsOrdinate := by
  unfold Obligations.SrdyReadsOrdinate
  intro rd imm s
  refine ⟨fun hfits => ?_, fun hout => ?_, fun sh hlt hsh => ?_⟩
  · exact encodesAs_of_fields rfl rfl rfl rfl (immField_toNat (decide_eq_true hfits))
  · exact State.complete_bind_errs (State.shareSlot_error hout) _
  · exact exec_writesF ⟨sh, hlt, hsh, rfl, rfl⟩

end Sys2Proof.Machine

/-! PROOF. Interpolation at zero in the field: its denominators, its first form, and that the order of the shares
does not matter (spec 43_lagrange_interpolation.md R154, R157, R158). -/

namespace Sys2Proof.Safety

open Sys2Proof.Machine

variable {s : State} {P : Word} {l m : List Share}

/-- A nonzero product has nonzero factors: no `N_i` is 0 when the abscissas are distinct (R158). -/
theorem productN_ne_zero (hP : P.toNat.Prime) (hx : Function.Injective (xOf P l)) (i : Fin l.length) :
    productN P l i ≠ 0 := by
  have := Fact.mk hP
  exact Finset.prod_ne_zero_iff.mpr fun j hj => sub_ne_zero.mpr (hx.ne (Finset.ne_of_mem_erase hj).symm)

/-- Factor by factor, `(-x_j) / (x_i - x_j)` is `x_j / (x_j - x_i)`: the two forms of R154. -/
theorem productD_mul_inv_productN (hP : P.toNat.Prime) (i : Fin l.length) :
    productD P l i * (productN P l i)⁻¹ =
      ∏ j ∈ Finset.univ.erase i, (xOf P l j * (xOf P l j - xOf P l i)⁻¹) := by
  have := Fact.mk hP
  rw [productD, productN, ← Finset.prod_inv_distrib, ← Finset.prod_mul_distrib]
  refine Finset.prod_congr rfl fun j _ => ?_
  rw [← neg_sub (xOf P l j), inv_neg, neg_mul_neg]

/-- Through shares with distinct abscissas there is a polynomial of a degree below their number. -/
theorem exists_polynomial_through_shares (hP : P.toNat.Prime) (hx : Function.Injective (xOf P l)) :
    ∃ f : Polynomial (ZMod P.toNat), f.degree < l.length ∧
      ∀ sh ∈ l, f.eval (inField P sh.x) = inField P sh.y := by
  have := Fact.mk hP
  have hinj : Set.InjOn (xOf P l) (Finset.univ : Finset (Fin l.length)) := hx.injOn
  refine ⟨Lagrange.interpolate Finset.univ (xOf P l) (yOf P l), ?_, fun sh hsh => ?_⟩
  · simpa using Lagrange.degree_interpolate_lt (yOf P l) hinj
  · obtain ⟨i, hi, rfl⟩ := List.getElem_of_mem hsh
    exact Lagrange.eval_interpolate_at_node (yOf P l) hinj (Finset.mem_univ ⟨i, hi⟩)

/-- One polynomial passes through the shares of both lists, and both interpolations are its value at 0 (R157). -/
theorem interpolationAtZero_perm (hP : P.toNat.Prime) (hl : Function.Injective (xOf P l))
    (hm : Function.Injective (xOf P m)) (h : l.Perm m) : interpolationAtZero P l = interpolationAtZero P m := by
  obtain ⟨f, hdeg, hon⟩ := exists_polynomial_through_shares hP hm
  have hdeg' : f.degree < l.length := by rwa [h.length_eq]
  have hon' : ∀ sh ∈ l, f.eval (inField P sh.x) = inField P sh.y := fun sh hsh => hon sh (h.subset hsh)
  rw [interpolationAtZero_eq_eval hP hl hdeg' fun i => hon' _ (List.getElem_mem i.isLt),
    interpolationAtZero_eq_eval hP hm hdeg fun i => hon _ (List.getElem_mem i.isLt)]

/-- The invariant does not depend on the order of the shares. -/
theorem Inv.setShares_perm (h : Inv s) (hl : l.Perm s.SH) : Inv (s.setShares l) :=
  h.setShares (fun sh hsh => h.shares sh (hl.subset hsh)) (hl.length_eq.trans_le h.capacity)

/-- The engine computes the same integer for every order of the shares (R157). -/
theorem Inv.lagrange0_perm (h : Inv s) (hl : l.Perm s.SH) (hnodup : s.SHX.Nodup) :
    Field.lagrange0 s.P.toNat (l.map Share.toPair) = Field.lagrange0 s.P.toNat (s.SH.map Share.toPair) := by
  have hinv := h.setShares_perm hl
  have hnodup' : (s.setShares l).SHX.Nodup := (hl.map Share.x).nodup_iff.mpr hnodup
  refine Field.eq_of_cast_eq (Field.lagrange0_lt h.pos _) (Field.lagrange0_lt h.pos _) ?_
  rw [h.cast_lagrange0, ← interpolationAtZero_perm h.modulus.1 (hinv.xOf_injective hnodup')
    (h.xOf_injective hnodup) hl]
  exact hinv.cast_lagrange0

end Sys2Proof.Safety

/-! PROOF. The command LRECON (spec 43_lagrange_interpolation.md R154 to R159). -/

namespace Sys2Proof.Machine

open Sys2Proof.Safety

variable {s : State} {rd : Reg}

/-- LRECON in every state: three checks in order, then the one write (R155). -/
theorem exec_lrecon (rd : Reg) (s : State) :
    exec (.lrecon rd) s = .next
      (if s.K = 0 then s.raise .degenerateThreshold
      else if s.NSH ≠ s.K then s.raise .mismatchedLengths
      else if badAbscissas s.SHX then s.raise .duplicateOrZeroIndex
      else (s.writeF rd (toWord (Field.lagrange0 s.P.toNat (s.SH.map Share.toPair)))).respond 0#128) := by
  simp only [exec, execLrecon, raiseIf_bind]
  split_ifs <;> rfl

/-- LRECON refuses a zero or a repeated abscissa (R155). -/
theorem exec_lrecon_errs_of_badAbscissas (rd : Reg) (hK : s.K ≠ 0) (hn : s.NSH = s.K)
    (hbad : badAbscissas s.SHX) : ∃ t, exec (.lrecon rd) s = .next t ∧ Errs s t .duplicateOrZeroIndex := by
  rw [exec_lrecon, if_neg hK, if_neg (not_not.mpr hn), if_pos hbad]
  exact ⟨_, rfl, s.raise_errs _⟩

/-- LRECON of good shares writes the word of the interpolation at zero (R155, R156). -/
theorem exec_lrecon_interpolates (rd : Reg) (hinv : Inv s) (hK : s.K ≠ 0) (hn : s.NSH = s.K)
    (hgood : ¬ badAbscissas s.SHX) :
    ∃ t v, exec (.lrecon rd) s = .next t ∧ WritesF s t rd v ∧ v.toNat < s.P.toNat ∧
      inField s.P v = interpolationAtZero s.P s.SH := by
  have hlt : Field.lagrange0 s.P.toNat (s.SH.map Share.toPair) < s.P.toNat := Field.lagrange0_lt hinv.pos _
  obtain ⟨t, ht, hwrites⟩ := exec_writesF (i := .lrecon rd) ⟨hK, hn, hgood, rfl, rfl⟩
  exact ⟨t, _, ht, hwrites, toWord_canonical hlt, (inField_toWord hlt).trans hinv.cast_lagrange0⟩

/-- Settles O19: the three checks in order, then the engine's sum, which is the interpolation in the field. -/
theorem lreconInterpolatesAtZero : Obligations.LreconInterpolatesAtZero := by
  unfold Obligations.LreconInterpolatesAtZero
  intro rd s
  refine ⟨encodesAs_of_fields rfl rfl rfl rfl rfl, fun hK => ?_, fun hK hn => ?_,
    exec_lrecon_errs_of_badAbscissas rd, exec_lrecon_interpolates rd⟩
  · exact State.complete_bind_errs (raiseIf_pos hK _) _
  · exact State.complete_bind_errs_of_ok (raiseIf_neg hK _) <| State.complete_bind_errs (raiseIf_pos hn _) _

/-- Settles O44: `K` points determine the polynomial; the guard of the write asks nothing of the modulus. -/
theorem reconstructFromAnyPoints : Obligations.ReconstructFromAnyPoints := by
  unfold Obligations.ReconstructFromAnyPoints
  constructor
  · intro s c rd hinv hK hn hgood hc hon
    exact exec_lrecon_writesF rd hinv hK hn hgood (hc _ (by omega)) hon
  · intro s rd hK hn hgood
    obtain ⟨t, ht, hwrites⟩ := exec_writesF (i := .lrecon rd) ⟨hK, hn, hgood, rfl, rfl⟩
    exact ⟨t, _, ht, hwrites⟩

/-- Settles O45: no check depends on the order of the shares, and neither does the sum. -/
theorem slotOrderDoesNotMatter : Obligations.SlotOrderDoesNotMatter := by
  unfold Obligations.SlotOrderDoesNotMatter
  intro s l rd hinv hl
  have hcount : (s.setShares l).NSH = s.NSH := hl.length_eq
  have habscissas : (s.setShares l).SHX.Perm s.SHX := hl.map Share.x
  have hbad : badAbscissas (s.setShares l).SHX ↔ badAbscissas s.SHX :=
    or_congr habscissas.mem_iff (not_congr habscissas.nodup_iff)
  refine ⟨_, _, exec_lrecon rd s, exec_lrecon rd (s.setShares l), ?_⟩
  simp only [hcount, hbad, State.setShares_K]
  split_ifs with hK hn hbad'
  case neg =>
    have hsum := hinv.lagrange0_perm hl (not_not.mp (not_or.mp hbad').2)
    simp [hsum]
  all_goals exact ⟨rfl, rfl⟩

/-- Settles O46: the two forms agree share by share. -/
theorem firstFormOfInterpolation : Obligations.FirstFormOfInterpolation := by
  unfold Obligations.FirstFormOfInterpolation
  intro s rd hinv hK hn hgood
  obtain ⟨t, v, ht, hwrites, -, hv⟩ := exec_lrecon_interpolates rd hinv hK hn hgood
  refine ⟨t, v, ht, hwrites, hv.trans (Finset.sum_congr rfl fun i _ => ?_)⟩
  rw [mul_assoc, productD_mul_inv_productN hinv.modulus.1]

/-- Settles O47: none of the four outcomes of LRECON is that error, and distinct canonical abscissas are distinct
in the field, so no product of their differences is 0. -/
theorem lreconNeverNoninvertible : Obligations.LreconNeverNoninvertible := by
  unfold Obligations.LreconNeverNoninvertible
  refine ⟨fun s t rd h => ?_, fun s hinv hgood i => ?_, fun s rd hK hn hdup => ?_⟩
  · rw [exec_lrecon] at h
    cases h
    split_ifs <;> exact ⟨_, rfl, nofun⟩
  · have hx := hinv.xOf_injective (not_not.mp (not_or.mp hgood).2)
    exact ⟨fun j hj => sub_ne_zero.mpr (hx.ne hj.symm), productN_ne_zero hinv.modulus.1 hx i⟩
  · exact exec_lrecon_errs_of_badAbscissas rd hK hn (.inr hdup)

end Sys2Proof.Machine

/-! PROOF. The control commands: CRD, CLR (spec 44_control_commands.md R170, R171; 10_state.md R33, R36). -/

namespace Sys2Proof.Machine

open Sys2Proof.Safety

/-! ### The bits of the valid masks -/

theorem validMask_getLsbD (v : Vector (Option Word) 16) (i : Nat) :
    (validMask v).getLsbD i = (v[i]?.map Option.isSome).getD false := by
  have hlt : validNat v.toList < 2 ^ 128 := by
    have h16 : validNat v.toList < 2 ^ 16 := by simpa using validNat_lt v.toList
    exact h16.trans (by norm_num)
  rw [BitVec.getLsbD, validMask, toWord_toNat hlt, validNat_testBit, Vector.getElem?_toList]

/-- The mask says of each element whether it holds a value, and has no other bit (R36). -/
theorem validMask_bits (v : Vector (Option Word) 16) :
    (∀ i : Fin 16, (validMask v).getLsbD i = v[i].isSome) ∧ ∀ i, 16 ≤ i → (validMask v).getLsbD i = false := by
  refine ⟨fun i => ?_, fun i hi => ?_⟩
  · simp [validMask_getLsbD]
  · simp [validMask_getLsbD, Vector.getElem?_eq_none hi]

/-! ### CRD -/

/-- Settles O20: the range test stands before the read; the invariant bounds both counts, so a word holds them. -/
theorem crdReadsCsr : Obligations.CrdReadsCsr := by
  unfold Obligations.CrdReadsCsr
  intro imm s
  refine ⟨fun hfits => ?_, fun hgt => ?_, fun hle hinv => ?_⟩
  · exact encodesAs_of_fields rfl rfl rfl rfl (immField_toNat (decide_eq_true hfits))
  · exact State.complete_bind_errs (raiseIf_pos hgt _) _
  · obtain ⟨t, ht, hanswers⟩ := exec_answers (s := s) (i := .crd imm) ⟨hle, rfl, rfl⟩
    refine ⟨t, s.csr imm, ht, hanswers, ?id, ?modulus, ?count, ?shares, ?registers, ?coefficients⟩
    case id => rintro rfl; exact ⟨rfl, rfl⟩
    case modulus => rintro rfl; rfl
    case count => rintro rfl; exact toWord_toNat (hinv.count_le.trans_lt (by norm_num))
    case shares => rintro rfl; exact toWord_toNat (hinv.capacity.trans_lt (by norm_num [Config.kmax]))
    case registers => rintro rfl; exact validMask_bits s.F
    case coefficients => rintro rfl; exact validMask_bits s.COEF

/-! ### CLR -/

/-- CLR answers `OK` with the discards of its mask and leaves `P` and the port as they were. -/
theorem exec_clr {imm : Nat} (s : State) (h : imm ≤ 7) :
    ∃ t, exec (.clr imm) s = .next t ∧ SameMfa (s.clear imm) t ∧ t.P = s.P ∧ SamePort s t ∧
      t.response = some ⟨.ok, 0#128⟩ := by
  have hperforms : Performs s (s.clear imm) 0#128 (.clr imm) := ⟨h, rfl, rfl⟩
  exact ⟨_, exec_of_performs hperforms, ⟨rfl, rfl, rfl, rfl, rfl⟩, s.clear_P imm,
    ⟨s.clear_din imm, s.clear_inputs imm⟩, rfl⟩

/-- Settles O21: the range test stands before the three discards, each decided by its own bit of the mask. -/
theorem clrDiscardsByMask : Obligations.ClrDiscardsByMask := by
  unfold Obligations.ClrDiscardsByMask
  intro imm s
  refine ⟨fun hfits => ?_, fun hgt => ?_, fun hle => ?_⟩
  · exact encodesAs_of_fields rfl rfl rfl rfl (immField_toNat (decide_eq_true hfits))
  · exact State.complete_bind_errs (raiseIf_pos hgt _) _
  · obtain ⟨t, ht, ⟨-, hF, hCOEF, hK, hSH⟩, hP, hport, hresponse⟩ := exec_clr s hle
    rw [State.clear_F, Nat.testBit_eq_decide_div_mod_eq] at hF
    rw [State.clear_COEF, Nat.testBit_eq_decide_div_mod_eq] at hCOEF
    rw [State.clear_K, Nat.testBit_eq_decide_div_mod_eq] at hK
    rw [State.clear_SH, Nat.testBit_eq_decide_div_mod_eq] at hSH
    refine ⟨t, ht, hresponse, hP, hport, ?clearF, ?keepF, ?clearPoly, ?keepPoly, ?clearShares, ?keepShares,
      ?nop, ?clearAll⟩
    case clearF => intro hbit r; simp [hF, hbit]
    case keepF => intro hbit; simp [hF, hbit]
    case clearPoly => intro hbit; simp [hK, hCOEF, hbit]
    case keepPoly => intro hbit; simp [hK, hCOEF, hbit]
    case clearShares => intro hbit; simp [State.NSH, hSH, hbit]
    case keepShares => intro hbit; simp [hSH, hbit]
    case nop => rintro rfl; exact ⟨hP, hF, hCOEF, hK, hSH⟩
    case clearAll => rintro rfl; exact ⟨fun r => by simp [hF], fun i => by simp [hCOEF], hK, hSH⟩

end Sys2Proof.Machine

/-! PROOF. The one status of a command: the first check to fail in the order of R211, and what that says of each
error kind (spec 60_exceptions.md R201, R206, R209, R211). -/

namespace Sys2Proof.Machine

open Sys2Proof.Safety

variable {s t : State} {i : Instr} {k : ErrorKind}

/-! ### The first check to fail -/

/-- Steps 2 to 4 of R211 pass: the immediate is in range, and so are the configuration and the counts. -/
structure PassesRanges (s : State) (i : Instr) : Prop where
  static : ¬ FailsStatic i
  configuration : ¬ FailsConfiguration s i
  count : ¬ FailsCount s i
  index : ¬ FailsIndex s i

/-- `k` is the error of the first check of `i` that fails in `s`, in the order of the steps 2 to 6 of R211. The two
checks of step 4 belong to different commands, and so do those of step 6. -/
inductive FirstFailure (s : State) (i : Instr) : ErrorKind → Prop
  | static (h : FailsStatic i) : FirstFailure s i .illegalCommand
  | configuration (hstatic : ¬ FailsStatic i) (h : FailsConfiguration s i) : FirstFailure s i .degenerateThreshold
  | count (hstatic : ¬ FailsStatic i) (hconfig : ¬ FailsConfiguration s i) (h : FailsCount s i) :
      FirstFailure s i .mismatchedLengths
  | index (hstatic : ¬ FailsStatic i) (hconfig : ¬ FailsConfiguration s i) (h : FailsIndex s i) :
      FirstFailure s i .illegalCommand
  | validity (hranges : PassesRanges s i) (h : FailsValidity s i) : FirstFailure s i .invalidRepresentation
  | inverse (hranges : PassesRanges s i) (hvalid : ¬ FailsValidity s i) (h : FailsInverse s i) :
      FirstFailure s i .noninvertibleElement
  | abscissa (hranges : PassesRanges s i) (hvalid : ¬ FailsValidity s i) (h : FailsAbscissa s i) :
      FirstFailure s i .duplicateOrZeroIndex

/-! ### Each step's check is made after those of the steps before it

The cases are grouped by the check that fails. -/

/-- A command whose next check fails ends in the error of that check. -/
theorem State.complete_check_errs {c : Prop} {_ : Decidable c} {f : Unit → Except ErrorKind Effect} (h : c) :
    ∃ t, s.complete (raiseIf c k >>= f) = .next t ∧ Errs s t k :=
  State.complete_bind_errs (raiseIf_pos h k) f

/-- A command whose next check passes ends in the error of what comes after it. -/
theorem State.complete_check_errs_of_not {c : Prop} {_ : Decidable c} {k' : ErrorKind}
    {f : Unit → Except ErrorKind Effect} (h : ¬ c) (hrest : ∃ t, s.complete (f ()) = .next t ∧ Errs s t k) :
    ∃ t, s.complete (raiseIf c k' >>= f) = .next t ∧ Errs s t k :=
  State.complete_bind_errs_of_ok (raiseIf_neg h k') hrest

theorem exec_errs_of_failsStatic (h : FailsStatic i) :
    ∃ t, exec i s = .next t ∧ Errs s t .illegalCommand := by
  cases i
  case psetk | pshare | crd | clr => exact State.complete_check_errs h
  case pldc | prdc => exact State.complete_bind_errs (State.coefSlot_error_of_ge h) _
  case srdx | srdy => exact State.complete_bind_errs (State.shareSlot_error (.inl h)) _
  all_goals exact h.elim

theorem exec_errs_of_failsConfiguration (hstatic : ¬ FailsStatic i) (h : FailsConfiguration s i) :
    ∃ t, exec i s = .next t ∧ Errs s t .degenerateThreshold := by
  cases i
  case psetk | pshare =>
    exact State.complete_check_errs_of_not hstatic <| State.complete_check_errs h
  case pldc | prdc =>
    exact State.complete_bind_errs (State.coefSlot_error_of_count_zero (Nat.not_le.mp hstatic) h) _
  case peval | lrecon => exact State.complete_check_errs h
  all_goals exact h.elim

theorem exec_errs_of_failsCount (hstatic : ¬ FailsStatic i) (hconfig : ¬ FailsConfiguration s i)
    (h : FailsCount s i) : ∃ t, exec i s = .next t ∧ Errs s t .mismatchedLengths := by
  cases i
  case pshare =>
    exact State.complete_check_errs_of_not hstatic <|
      State.complete_check_errs_of_not hconfig <| State.complete_check_errs h
  case lrecon =>
    exact State.complete_check_errs_of_not hconfig <| State.complete_check_errs h
  all_goals exact h.elim

theorem exec_errs_of_failsIndex (hstatic : ¬ FailsStatic i) (hconfig : ¬ FailsConfiguration s i)
    (h : FailsIndex s i) : ∃ t, exec i s = .next t ∧ Errs s t .illegalCommand := by
  cases i
  case pldc | prdc =>
    exact State.complete_bind_errs (State.coefSlot_error_of_count_le (Nat.not_le.mp hstatic) hconfig h) _
  case srdx | srdy => exact State.complete_bind_errs (State.shareSlot_error (.inr h)) _
  case spush => exact State.complete_check_errs h
  all_goals exact h.elim

/-- The coefficient slot of a command that passes steps 2 to 4 is there. -/
theorem State.coefSlot_ok_of_ranges {imm : Nat} (hstatic : ¬ 16 ≤ imm) (hconfig : s.K ≠ 0) (hindex : ¬ s.K ≤ imm) :
    s.coefSlot imm = .ok () :=
  State.coefSlot_ok (Nat.not_le.mp hstatic) hconfig (Nat.not_le.mp hindex)

theorem none_of_mem_pair {ra rb r : Reg} (hr : r ∈ [ra, rb]) (hnone : s.F[r] = none) :
    s.F[ra] = none ∨ s.F[rb] = none := by
  rcases List.mem_pair.mp hr with rfl | rfl
  · exact .inl hnone
  · exact .inr hnone

theorem exec_errs_of_source_none {r : Reg} (hranges : PassesRanges s i) (hr : r ∈ sources i)
    (hnone : s.F[r] = none) : ∃ t, exec i s = .next t ∧ Errs s t .invalidRepresentation := by
  obtain ⟨hstatic, hconfig, -, hindex⟩ := hranges
  cases i
  case fst | fmov | fneg | finv =>
    obtain rfl := List.mem_singleton.mp hr
    exact State.complete_bind_errs (State.readF_none hnone) _
  case pldc =>
    obtain rfl := List.mem_singleton.mp hr
    exact State.complete_bind_errs_of_ok (State.coefSlot_ok_of_ranges hstatic hconfig hindex) <|
      State.complete_bind_errs (State.readF_none hnone) _
  case peval =>
    obtain rfl := List.mem_singleton.mp hr
    exact exec_peval_errs hconfig (.inl hnone)
  case fadd | fsub | fmul =>
    exact State.complete_bind_errs (State.readPair_none (none_of_mem_pair hr hnone)) _
  case feq => exact exec_feq_errs (none_of_mem_pair hr hnone)
  case spush =>
    exact State.complete_check_errs_of_not hindex <|
      State.complete_read_two_errs (none_of_mem_pair hr hnone) _
  all_goals exact nomatch hr

theorem exec_errs_of_failsElement (hranges : PassesRanges s i) (h : FailsElement s i) :
    ∃ t, exec i s = .next t ∧ Errs s t .invalidRepresentation := by
  obtain ⟨hstatic, hconfig, hcount, hindex⟩ := hranges
  cases i
  case fld | fseti => exact State.complete_bind_errs (State.canonical_error h) _
  case prdc =>
    obtain ⟨i, rfl, hnone⟩ := h
    exact State.complete_bind_errs_of_ok (State.coefSlot_ok_of_ranges hstatic hconfig hindex) <|
      State.complete_bind_errs (State.readCoef_none hnone) _
  case peval => exact exec_peval_errs hconfig (.inr h)
  case pshare =>
    exact State.complete_check_errs_of_not hstatic <|
      State.complete_check_errs_of_not hconfig <|
      State.complete_check_errs_of_not hcount <|
      State.complete_bind_errs (State.readPolynomial_error h) _
  all_goals exact h.elim

theorem failsInverse_iff : FailsInverse s i ↔ ∃ rd ra, i = .finv rd ra ∧ s.F[ra] = some 0#128 := by
  constructor
  · intro h
    cases i
    case finv rd ra => exact ⟨rd, ra, rfl, h⟩
    all_goals exact h.elim
  · rintro ⟨rd, ra, rfl, h⟩
    exact h

theorem exec_errs_of_failsInverse (h : FailsInverse s i) :
    ∃ t, exec i s = .next t ∧ Errs s t .noninvertibleElement := by
  obtain ⟨rd, ra, rfl, hzero⟩ := failsInverse_iff.mp h
  exact State.complete_bind_errs_of_ok (State.readF_some hzero) <| State.complete_check_errs rfl

theorem badAbscissas_iff {xs : List Word} : badAbscissas xs ↔ (∃ x ∈ xs, x = 0#128) ∨ ¬ xs.Nodup := by
  simp [badAbscissas]

theorem exec_errs_of_failsAbscissa (hranges : PassesRanges s i) (h : FailsAbscissa s i) :
    ∃ t, exec i s = .next t ∧ Errs s t .duplicateOrZeroIndex := by
  obtain ⟨-, hconfig, hcount, -⟩ := hranges
  cases i
  case lrecon rd =>
    exact exec_lrecon_errs_of_badAbscissas rd hconfig (not_not.mp hcount) (badAbscissas_iff.mpr h)
  all_goals exact h.elim

/-- The first check to fail is the one a command answers (R211). -/
theorem FirstFailure.exec_errs (h : FirstFailure s i k) : ∃ t, exec i s = .next t ∧ Errs s t k := by
  cases h with
  | static h => exact exec_errs_of_failsStatic h
  | configuration hstatic h => exact exec_errs_of_failsConfiguration hstatic h
  | count hstatic hconfig h => exact exec_errs_of_failsCount hstatic hconfig h
  | index hstatic hconfig h => exact exec_errs_of_failsIndex hstatic hconfig h
  | validity hranges h =>
    rcases h with ⟨r, hr, hnone⟩ | h
    · exact exec_errs_of_source_none hranges hr hnone
    · exact exec_errs_of_failsElement hranges h
  | inverse _ _ h => exact exec_errs_of_failsInverse h
  | abscissa hranges _ h => exact exec_errs_of_failsAbscissa hranges h

/-! ### With no check failing, a command performs its effect -/

theorem source_value_of_not_failsValidity (h : ¬ FailsValidity s i) {r : Reg} (hr : r ∈ sources i) :
    ∃ v, s.F[r] = some v :=
  Option.ne_none_iff_exists'.mp fun hnone => h (.inl ⟨r, hr, hnone⟩)

/-- A polynomial with no unwritten slot is read whole. -/
theorem State.exists_polynomial (h : ¬ Incomplete s) : ∃ vs : List Word, s.COEF.toList.take s.K = vs.map some := by
  rcases s.readPolynomial_cases with ⟨vs, hvs, -⟩ | ⟨hnone, -⟩
  · exact ⟨vs, hvs⟩
  · exact absurd (s.none_mem_take.mp hnone) h

/-- A share slot below `NSH` holds a share. -/
theorem State.exists_share {imm : Nat} (h : ¬ s.NSH ≤ imm) : ∃ sh, s.SH[imm]? = some sh :=
  ⟨_, List.getElem?_eq_getElem (Nat.not_le.mp h)⟩

/-- The guard of a command's effect is that no check fails. -/
theorem performs_of_passes (hranges : PassesRanges s i) (hvalid : ¬ FailsValidity s i)
    (hinverse : ¬ FailsInverse s i) (habscissa : ¬ FailsAbscissa s i) : ∃ t d, Performs s t d i := by
  have hsource := fun r => source_value_of_not_failsValidity hvalid (r := r)
  have helement : ¬ FailsElement s i := fun h => hvalid (.inr h)
  obtain ⟨hstatic, hconfig, hcount, hindex⟩ := hranges
  cases i
  case fld | fseti => exact ⟨_, _, Nat.not_le.mp helement, rfl, rfl⟩
  case fst ra =>
    obtain ⟨a, ha⟩ := hsource ra List.mem_cons_self
    exact ⟨_, _, ha, rfl⟩
  case fmov _ ra | fneg _ ra =>
    obtain ⟨a, ha⟩ := hsource ra List.mem_cons_self
    exact ⟨_, _, a, ha, rfl, rfl⟩
  case finv _ ra =>
    obtain ⟨a, ha⟩ := hsource ra List.mem_cons_self
    have hne : a ≠ 0#128 := fun hzero => hinverse (ha.trans (congrArg some hzero))
    exact ⟨_, _, a, ha, hne, rfl, rfl⟩
  case fadd _ ra rb | fsub _ ra rb | fmul _ ra rb | feq ra rb =>
    obtain ⟨a, ha⟩ := hsource ra List.mem_cons_self
    obtain ⟨b, hb⟩ := hsource rb (List.mem_cons_of_mem _ List.mem_cons_self)
    exact ⟨_, _, a, b, ha, hb, rfl, rfl⟩
  case psetk => exact ⟨_, _, Nat.not_le.mp hconfig, Nat.not_lt.mp hstatic, rfl, rfl⟩
  case pldc _ ra =>
    obtain ⟨a, ha⟩ := hsource ra List.mem_cons_self
    exact ⟨_, _, a, Nat.not_le.mp hstatic, hconfig, Nat.not_le.mp hindex, ha, rfl, rfl⟩
  case prdc _ imm =>
    have hslot : imm < 16 := Nat.not_le.mp hstatic
    obtain ⟨c, hc⟩ := Option.ne_none_iff_exists'.mp fun hnone => helement ⟨⟨imm, hslot⟩, rfl, hnone⟩
    exact ⟨_, _, ⟨imm, hslot⟩, c, rfl, hconfig, Nat.not_le.mp hindex, hc, rfl, rfl⟩
  case peval _ ra =>
    obtain ⟨x, hx⟩ := hsource ra List.mem_cons_self
    obtain ⟨vs, hvs⟩ := State.exists_polynomial helement
    exact ⟨_, _, x, vs, hconfig, hx, hvs, rfl, rfl⟩
  case pshare =>
    obtain ⟨hpos, hle⟩ := not_or.mp hcount
    obtain ⟨vs, hvs⟩ := State.exists_polynomial helement
    exact ⟨_, _, vs, Nat.not_lt.mp hstatic, hconfig, hpos, Nat.not_lt.mp hle, hvs, rfl, rfl⟩
  case spush ra rb =>
    obtain ⟨x, hx⟩ := hsource ra List.mem_cons_self
    obtain ⟨y, hy⟩ := hsource rb (List.mem_cons_of_mem _ List.mem_cons_self)
    exact ⟨_, _, x, y, hindex, hx, hy, rfl, rfl⟩
  case srdx | srdy =>
    obtain ⟨sh, hsh⟩ := State.exists_share hindex
    exact ⟨_, _, sh, Nat.not_le.mp hstatic, hsh, rfl, rfl⟩
  case lrecon => exact ⟨_, _, hconfig, not_not.mp hcount, mt badAbscissas_iff.mp habscissa, rfl, rfl⟩
  case crd | clr => exact ⟨_, _, Nat.not_lt.mp hstatic, rfl, rfl⟩

theorem firstFailure_or_performs (s : State) (i : Instr) :
    (∃ k, FirstFailure s i k) ∨ ∃ t d, Performs s t d i := by
  by_cases hstatic : FailsStatic i
  · exact .inl ⟨_, .static hstatic⟩
  by_cases hconfig : FailsConfiguration s i
  · exact .inl ⟨_, .configuration hstatic hconfig⟩
  by_cases hcount : FailsCount s i
  · exact .inl ⟨_, .count hstatic hconfig hcount⟩
  by_cases hindex : FailsIndex s i
  · exact .inl ⟨_, .index hstatic hconfig hindex⟩
  have hranges : PassesRanges s i := ⟨hstatic, hconfig, hcount, hindex⟩
  by_cases hvalid : FailsValidity s i
  · exact .inl ⟨_, .validity hranges hvalid⟩
  by_cases hinverse : FailsInverse s i
  · exact .inl ⟨_, .inverse hranges hvalid hinverse⟩
  by_cases habscissa : FailsAbscissa s i
  · exact .inl ⟨_, .abscissa hranges hvalid habscissa⟩
  exact .inr (performs_of_passes hranges hvalid hinverse habscissa)

/-- The status a command answers is the error of its first check to fail, and `OK` when there is none (R211). -/
theorem exec_status (h : exec i s = .next t) :
    ∃ r, t.response = some r ∧ ∀ k, r.status = .error k ↔ FirstFailure s i k := by
  have herrs : ∀ k, FirstFailure s i k → t.response = some ⟨.error k, 0#128⟩ := by
    intro k hk
    obtain ⟨t', ht', -, -, hresponse⟩ := hk.exec_errs
    cases h.symm.trans ht'
    exact hresponse
  rcases firstFailure_or_performs s i with ⟨k, hk⟩ | ⟨u, d, hp⟩
  · refine ⟨_, herrs k hk, fun k' => ⟨?_, fun hk' => ?_⟩⟩
    · rintro ⟨⟩
      exact hk
    · exact congrArg Response.status (Option.some.inj ((herrs k hk).symm.trans (herrs k' hk')))
  · cases h.symm.trans (exec_of_performs hp)
    exact ⟨_, rfl, fun k => ⟨nofun, fun hk => nomatch herrs k hk⟩⟩

/-- Settles O33: each clause says which check is the first to fail; with none failing there is no error to answer. -/
theorem firstFailingCheckIsReported : Obligations.FirstFailingCheckIsReported := by
  unfold Obligations.FirstFailingCheckIsReported
  refine ⟨fun cw s e hdec => transact_errs hdec s, fun i s => ?_⟩
  obtain ⟨t, ht⟩ := exec_next i s
  obtain ⟨r, hr, hstatus⟩ := exec_status ht
  refine ⟨t, r, ht, hr, fun h => (hstatus _).mpr (.static h),
    fun hstatic h => (hstatus _).mpr (.configuration hstatic h),
    fun hstatic hconfig h => (hstatus _).mpr (.count hstatic hconfig h),
    fun hstatic hconfig h => (hstatus _).mpr (.index hstatic hconfig h),
    fun hstatic hconfig hcount hindex => ?_⟩
  have hranges : PassesRanges s i := ⟨hstatic, hconfig, hcount, hindex⟩
  refine ⟨fun h => (hstatus _).mpr (.validity hranges h), fun hvalid h => (hstatus _).mpr (.inverse hranges hvalid h),
    fun hvalid h => (hstatus _).mpr (.abscissa hranges hvalid h), fun hvalid hinverse habscissa => ?_⟩
  cases hst : r.status with
  | ok => rfl
  | error k => cases (hstatus k).mp hst <;> contradiction

/-! ### The error kinds one by one -/

/-- The commands that read no register and no coefficient, and construct no element, never refuse one (R202). -/
theorem opcode_of_failsValidity (h : FailsValidity s i) : i.opcode ∈
    [.fld, .fseti, .fst, .fmov, .fadd, .fsub, .fmul, .fneg, .finv, .feq, .pldc, .prdc, .peval, .pshare, .spush] := by
  cases i
  case psetk | srdx | srdy | lrecon | crd | clr => rcases h with ⟨r, hr, -⟩ | h <;> contradiction
  all_goals simp [Instr.opcode]

theorem opcode_of_failsConfiguration (h : FailsConfiguration s i) :
    i.opcode = .psetk ∨ (i.opcode ∈ [.pldc, .prdc, .peval, .pshare, .lrecon] ∧ s.K = 0) := by
  cases i
  case psetk => exact .inl rfl
  case pldc | prdc | peval | pshare | lrecon => exact .inr ⟨by simp [Instr.opcode], h⟩
  all_goals exact h.elim

theorem command_of_failsCount (h : FailsCount s i) :
    (∃ rd, i = .lrecon rd ∧ s.NSH ≠ s.K) ∨ ∃ n, i = .pshare n ∧ (n = 0 ∨ s.K < n) := by
  cases i
  case lrecon rd => exact .inl ⟨rd, rfl, h⟩
  case pshare n => exact .inr ⟨n, rfl, h⟩
  all_goals exact h.elim

theorem opcode_of_failsAbscissa (h : FailsAbscissa s i) : i.opcode = .lrecon := by
  cases i
  case lrecon => rfl
  all_goals exact h.elim

theorem opcode_of_failsStatic_or_failsIndex (h : FailsStatic i ∨ FailsIndex s i) :
    i.opcode ∈ [.psetk, .pldc, .prdc, .pshare, .spush, .srdx, .srdy, .crd, .clr] := by
  cases i
  case psetk | pldc | prdc | pshare | spush | srdx | srdy | crd | clr => simp [Instr.opcode]
  all_goals exact h.elim False.elim False.elim

/-- Settles O31: an error is that of the first check to fail, and each check belongs to the commands that make it. -/
theorem statusCodesAndWhoRaisesThem : Obligations.StatusCodesAndWhoRaisesThem := by
  unfold Obligations.StatusCodesAndWhoRaisesThem
  refine ⟨rfl, rfl, rfl, rfl, rfl, rfl, rfl, rfl, fun i s t h => ?_⟩
  obtain ⟨r, hr, hstatus⟩ := exec_status h
  refine ⟨r, hr, ?invalid, ?degenerate, ?mismatched, ?duplicate, ?noninvertible, ?wrongAnswer, ?illegal⟩
  case invalid =>
    intro hk
    cases (hstatus _).mp hk with
    | validity _ h => exact opcode_of_failsValidity h
  case degenerate =>
    intro hk
    cases (hstatus _).mp hk with
    | configuration _ h => exact opcode_of_failsConfiguration h
  case mismatched =>
    intro hk
    cases (hstatus _).mp hk with
    | count _ _ h => exact command_of_failsCount h
  case duplicate =>
    intro hk
    cases (hstatus _).mp hk with
    | abscissa _ _ h => exact opcode_of_failsAbscissa h
  case noninvertible =>
    intro hk
    cases (hstatus _).mp hk with
    | inverse _ _ h =>
      obtain ⟨rd, ra, rfl, -⟩ := failsInverse_iff.mp h
      rfl
  case wrongAnswer =>
    intro hk
    cases (hstatus _).mp hk
  case illegal =>
    intro hk
    cases (hstatus _).mp hk with
    | static h => exact opcode_of_failsStatic_or_failsIndex (s := s) (.inl h)
    | index _ _ h => exact opcode_of_failsStatic_or_failsIndex (.inr h)

/-- Settles O32: the inverse of zero is the one check of that error. -/
theorem noninvertibleOnlyFromFinvOfZero : Obligations.NoninvertibleOnlyFromFinvOfZero := by
  unfold Obligations.NoninvertibleOnlyFromFinvOfZero
  intro i s t h
  rw [← failsInverse_iff]
  constructor
  · rintro ⟨d, hd⟩
    obtain ⟨r, hr, hstatus⟩ := exec_status h
    cases hr.symm.trans hd
    cases (hstatus _).mp rfl with
    | inverse _ _ h => exact h
  · intro hzero
    obtain ⟨t', ht', -, -, hresponse⟩ := exec_errs_of_failsInverse hzero
    cases h.symm.trans ht'
    exact ⟨_, hresponse⟩

/-- Settles O29: a transaction that answers an error raised it in the state it accepted the command in. -/
theorem errorChangesNoState : Obligations.ErrorChangesNoState := by
  unfold Obligations.ErrorChangesNoState
  intro s t cw din rest k d hin hstep herror
  rw [step_of_command hin] at hstep
  rcases transact_eq_next hstep with ⟨i, u, d, -, -, rfl⟩ | ⟨k, rfl⟩
  · cases herror
  · cases herror
    exact ⟨⟨rfl, rfl, rfl, rfl, rfl⟩, rfl⟩

end Sys2Proof.Machine

/-! PROOF. Reset and the state after it: a reset between commands or during one, and what each command answers in
the reset state (spec 70_reset_and_hazards.md R230, R231, R232). -/

namespace Sys2Proof.Machine

open Sys2Proof.Safety

variable {s t : State} {d : Word} {i : Instr} {rest : List Input}

/-! ### The step of a reset -/

/-- The state that a reset leads to is the reset state of R231, whatever the state was. -/
theorem State.hardReset_atReset (s : State) (rest : List Input) : AtReset (s.hardReset rest) :=
  ⟨fun r => by simp, fun i => by simp, rfl, rfl⟩

theorem step_of_reset (h : s.inputs = .reset :: rest) : step s = .next (s.hardReset rest) := by
  simp [step, h]

theorem step_of_abandoned {cw : CommandWord} {din : Word} (h : s.inputs = .abandoned cw din :: rest) :
    step s = .next (s.hardReset rest) := by
  simp [step, h]

/-- Settles O40: the reset state has a definite value in every field, from which each CSR is computed. -/
theorem resetEventGivesResetState : Obligations.ResetEventGivesResetState := by
  unfold Obligations.ResetEventGivesResetState
  intro s rest hin
  exact ⟨_, step_of_reset hin, s.hardReset_atReset rest, rfl, rfl, rfl, rfl, rfl, rfl, rfl, rfl, rfl⟩

/-- `CLR 7` discards all that a reset discards, and keeps `P` as a reset does (R171, R231). -/
theorem State.hardReset_sameMfa_clear (s : State) (rest : List Input) : SameMfa (s.hardReset rest) (s.clear 7) :=
  ⟨s.clear_P 7, s.clear_F 7, s.clear_COEF 7, s.clear_K 7, s.clear_SH 7⟩

/-- Settles O41: the step that abandons a command is that of a reset, made before the command has any effect. -/
theorem resetAbandonsCommand : Obligations.ResetAbandonsCommand := by
  unfold Obligations.ResetAbandonsCommand
  intro s cw din rest
  constructor
  · intro hin
    exact ⟨_, step_of_abandoned hin, s.hardReset_atReset rest, rfl, rfl, rfl, step_of_reset rfl⟩
  · have hperforms : Performs s (s.clear 7) 0#128 (.clr 7) := ⟨le_rfl, rfl, rfl⟩
    exact ⟨_, exec_of_performs hperforms, s.hardReset_sameMfa_clear rest⟩

/-! ### What a command answers right after reset -/

/-- With no share held, the commands whose only other check is the validity of their sources come to that check. -/
theorem passesRanges_of_reads_registers (hshares : s.NSH = 0)
    (hi : i.opcode ∈ [.fst, .fmov, .fadd, .fsub, .fmul, .fneg, .finv, .feq, .spush]) :
    PassesRanges s i ∧ ∃ r, r ∈ sources i := by
  cases i
  case fst | fmov | fadd | fsub | fmul | fneg | finv | feq =>
    exact ⟨⟨id, id, id, id⟩, _, List.mem_cons_self⟩
  case spush =>
    have hindex : s.NSH ≠ 16 := by simp [hshares]
    exact ⟨⟨id, id, id, hindex⟩, _, List.mem_cons_self⟩
  all_goals simp [Instr.opcode] at hi

theorem exec_errs_of_registers_none (hF : ∀ r : Reg, s.F[r] = none) (hshares : s.NSH = 0)
    (hi : i.opcode ∈ [.fst, .fmov, .fadd, .fsub, .fmul, .fneg, .finv, .feq, .spush]) :
    ∃ t, exec i s = .next t ∧ Errs s t .invalidRepresentation := by
  obtain ⟨hranges, r, hr⟩ := passesRanges_of_reads_registers hshares hi
  exact exec_errs_of_source_none hranges hr (hF r)

theorem Performs.exec_ok (h : Performs s t d i) : ∃ t d, exec i s = .next t ∧ t.response = some ⟨.ok, d⟩ :=
  ⟨_, d, exec_of_performs h, rfl⟩

/-- Settles O42: each command that fails does so at its first check on what reset left unwritten or empty, and the
others need nothing from the state but `P`. -/
theorem answersRightAfterReset : Obligations.AnswersRightAfterReset := by
  unfold Obligations.AnswersRightAfterReset
  rintro s rd ra rb imm ⟨hF, -, hK, hSH⟩
  have hshares : s.NSH = 0 := by rw [State.NSH_eq, hSH, List.length_nil]
  refine ⟨?registers, ?slots, ?polynomial, ?shares, ?succeeds⟩
  case registers =>
    intro i hi
    exact exec_errs_of_registers_none hF hshares (List.mem_map_of_mem (f := Instr.opcode) hi)
  case slots =>
    intro himm i hi
    have hstatic : ¬ 16 ≤ imm := Nat.not_le.mpr himm
    rcases List.mem_pair.mp hi with rfl | rfl
    · exact exec_errs_of_failsConfiguration hstatic hK
    · exact exec_errs_of_failsConfiguration hstatic hK
  case polynomial =>
    intro himm i hi
    have hstatic : ¬ 16 < imm := Nat.not_lt.mpr himm
    simp only [List.mem_cons, List.not_mem_nil, or_false] at hi
    rcases hi with rfl | rfl | rfl
    · exact exec_errs_of_failsConfiguration id hK
    · exact exec_errs_of_failsConfiguration hstatic hK
    · exact exec_errs_of_failsConfiguration id hK
  case shares =>
    have hslot : s.shareSlot imm = .error .illegalCommand := State.shareSlot_error (.inr (hshares ▸ imm.zero_le))
    intro i hi
    rcases List.mem_pair.mp hi with rfl | rfl
    · exact State.complete_bind_errs hslot _
    · exact State.complete_bind_errs hslot _
  case succeeds =>
    rintro i (⟨rfl, hlt⟩ | ⟨rfl, hlt⟩ | ⟨rfl, hlow, hhigh⟩ | ⟨rfl, hle⟩ | ⟨rfl, hle⟩)
    · exact Performs.exec_ok ⟨hlt, rfl, rfl⟩
    · exact Performs.exec_ok ⟨hlt, rfl, rfl⟩
    · exact Performs.exec_ok ⟨hlow, hhigh, rfl, rfl⟩
    · exact Performs.exec_ok ⟨hle, rfl, rfl⟩
    · exact Performs.exec_ok ⟨hle, rfl, rfl⟩

end Sys2Proof.Machine
